-- ==== Sys2Proof/Word.lean ====
section
/-!
DEFINITION. Words: the widths the block moves (spec/00_scope.md R4).

Bits are numbered from 1 in the spec (R5); Lean's `getLsbD` and `extractLsb'` number them from 0, so the
spec's bit `k` is `getLsbD (k - 1)` here. A "word of width n" (R6) is a `BitVec n`.
-/

namespace Sys2Proof

/-- A storage word, `W_CELL` = 15 bits (R4, R38, R39): the contents of one cell of either store and of
every register cell but A, Q, FBANK, Z and EDOP. -/
abbrev Word := BitVec 15

/-- An accumulator word, `W_ACC` = 16 bits (R4): the contents of A and Q, bit 16 being the overflow bit. -/
abbrev Acc := BitVec 16

/-- A packed AddressRef, 20 bits (R81). -/
abbrev PackedRef := BitVec 20

/-- The `cmd` signal of the command port, 24 bits (R86). -/
abbrev CmdWord := BitVec 24

end Sys2Proof
end

