-- ==== Sys2Proof/Config.lean ====
section
/-!
DEFINITION. Configuration: the names of the register cells and of the two stores, and the construction-time
parameters of the block (spec/00_scope.md R4, spec/10_state.md R10, R12).

The parameters' default values stand in Sys2Proof/Machine/Params.lean.
-/

namespace Sys2Proof

/-- The 19 named register cells (R10), in the spec's order. `bbank` is the derived one (R11). -/
inductive Reg where
  | a | q | l | ebank | fbank | z | bbank
  | arupt | lrupt | qrupt | samptime1 | samptime2 | zrupt | bbrupt | brupt
  | cyr | sr | cyl | edop
  deriving DecidableEq, Repr

/-- The two banked stores: `E`, erasable (R38), and `F`, fixed (R39). -/
inductive Store where
  | erasable
  | fixed
  deriving DecidableEq, Repr

/-- The construction-time parameters of R4 that the spec leaves to the configuration: `REGMAP`, `REG_LIMIT`,
`VARIANT`/`validReg` and `FF_BASE`. They are fixed when the machine is built and never change (R43). A machine
carries its configuration in the field `State.cfg`, so a claim about every state is a claim about every
configuration (notes/assumptions/2.md). -/
structure Config where
  /-- `REGMAP` (R12): which register cell stands at a register address; an address not listed names no cell. -/
  regMap : List (Nat × Reg)
  /-- `REG_LIMIT` (R4, R12): the addresses below it are register addresses. -/
  regLimit : Nat
  /-- `validReg` (R4, R53): the register cells the configured machine variant accepts. -/
  validRegs : List Reg
  /-- `FF_BASE` (R4, R55): the fixed bank mapped at direct address `0o4000`. -/
  ffBase : Nat
  deriving DecidableEq, Repr

end Sys2Proof
end

