-- ==== Sys2Proof/Syntax.lean ====
section
/-!
DEFINITION. Syntax: AddressRef, the instructions (one constructor per row of spec/opcode_table.json: the row's
operation and its format) and the command as it stands on the port's input signals.
-/

namespace Sys2Proof

/-- An AddressRef (R52), "a tagged variant". Its fields are natural numbers; a reference that names nothing
is not corrected but refused when it is used (R52, R60, R65). -/
inductive Ref where
  /-- `Direct(a)`: an absolute address in the unswitched space. -/
  | direct (a : Nat)
  /-- `Banked(t, b, o)`: store, bank and offset. -/
  | banked (t : Store) (b o : Nat)
  /-- `DeadBank`: reads yield 0, writes are dropped. -/
  | deadBank
  deriving DecidableEq, Repr

/-- The two command formats, told apart by the signal `cmd_form` alone (R86, R92). -/
inductive Format where
  /-- format F, the field form: `cmd_form` = 0, 16 bits used (R87) -/
  | field
  /-- format R, the reference form: `cmd_form` = 1, 24 bits (R88) -/
  | reference
  deriving DecidableEq, Repr

/-- The instructions: one constructor per row of spec/opcode_table.json (R89). A suffix `F` or `R` tells the
two formats of one operation apart; an operation with one legal format has no suffix. `k` is the 12-bit
address field of format F (R80, R87), `n` a register number (R85), `ref` an unpacked reference (R88). The
data of WRITE, REGWRITE and BANKWRITE is no part of the command word: it is the port's `din` (R86). -/
inductive Instr where
  /-- READ, format F (R120) -/
  | readF (k : Nat)
  /-- WRITE, format F (R121) -/
  | writeF (k : Nat)
  /-- DEDUCE (R122) -/
  | deduce (k : Nat)
  /-- AD, format F (R142) -/
  | adF (k : Nat)
  /-- COM (R143) -/
  | com
  /-- INCR, format F (R144) -/
  | incrF (k : Nat)
  /-- AUG, format F (R145) -/
  | augF (k : Nat)
  /-- DIM, format F (R146) -/
  | dimF (k : Nat)
  /-- SU, format F (R147) -/
  | suF (k : Nat)
  /-- DOUBLE (R148) -/
  | double
  /-- REGREAD (R123) -/
  | regread (n : Nat)
  /-- REGWRITE (R124) -/
  | regwrite (n : Nat)
  /-- SETSB (R127): the new superbank flag -/
  | setsb (b : Bool)
  /-- READ, format R (R120) -/
  | readR (ref : Ref)
  /-- WRITE, format R (R121) -/
  | writeR (ref : Ref)
  /-- AD, format R (R142) -/
  | adR (ref : Ref)
  /-- INCR, format R (R144) -/
  | incrR (ref : Ref)
  /-- AUG, format R (R145) -/
  | augR (ref : Ref)
  /-- DIM, format R (R146) -/
  | dimR (ref : Ref)
  /-- SU, format R (R147) -/
  | suR (ref : Ref)
  /-- BANKREAD (R125), a Banked reference -/
  | bankread (t : Store) (b o : Nat)
  /-- BANKWRITE (R126), a Banked reference -/
  | bankwrite (t : Store) (b o : Nat)
  deriving DecidableEq, Repr

/-- One command as the caller presents it on the input signals of the port (R86). -/
structure Command where
  /-- the signal `cmd_form` -/
  form : Format
  /-- the signal `cmd`: the command word -/
  cmd  : CmdWord
  /-- the signal `din`: data for WRITE, REGWRITE and BANKWRITE -/
  din  : BitVec 16
  deriving DecidableEq, Repr

end Sys2Proof
end

