-- ==== Sys2Proof/WellFormed.lean ====
section
/-!
DEFINITION. Well-formedness: the operands an encoding can carry (spec/30_encoding.md R80 to R88). A term that
fails a check is one no command word stands for; the machine still gives it the meaning of the abstract
operation, which the spec states over all natural numbers (R100).
-/

namespace Sys2Proof

/-- A 12-bit address field or register number (R80, R85, R87). -/
def fieldWf (k : Nat) : Bool :=
  decide (k < 2 ^ 12)

/-- A packed `Direct` address is 18 bits wide (R82). -/
def directWf (a : Nat) : Bool :=
  decide (a < 2 ^ 18)

/-- A packed bank number is 7 bits wide and a packed offset 10 (R83). -/
def bankedWf (b o : Nat) : Bool :=
  decide (b < 2 ^ 7) && decide (o < 2 ^ 10)

/-- A reference that crosses the port (R81 to R84). -/
def Ref.wf : Ref → Bool
  | .direct a => directWf a
  | .banked _ b o => bankedWf b o
  | .deadBank => true

/-- An instruction some command word stands for (R87 to R89). -/
def Instr.wf : Instr → Bool
  | .readF k => fieldWf k
  | .writeF k => fieldWf k
  | .deduce k => fieldWf k
  | .adF k => fieldWf k
  | .com => true
  | .incrF k => fieldWf k
  | .augF k => fieldWf k
  | .dimF k => fieldWf k
  | .suF k => fieldWf k
  | .double => true
  | .regread n => fieldWf n
  | .regwrite n => fieldWf n
  | .setsb _ => true
  | .readR ref => ref.wf
  | .writeR ref => ref.wf
  | .adR ref => ref.wf
  | .incrR ref => ref.wf
  | .augR ref => ref.wf
  | .dimR ref => ref.wf
  | .suR ref => ref.wf
  | .bankread _ b o => bankedWf b o
  | .bankwrite _ b o => bankedWf b o

end Sys2Proof
end

