-- ==== Sys2Proof/Decode.lean ====
section
/-!
DEFINITION. Decode: the packed AddressRef (R81 to R84), the command decoder (R87 to R92), total on every value
of the input signals and rejecting each reserved encoding by name (R91), and the encoder.

The patterns are the spec's own (decision D9 of spec/92_eei_decisions.md), restated from its encoding table.
-/

namespace Sys2Proof

/-- The seven classes of reserved encodings (R91). Every one of them is answered with InvalidCommand. -/
inductive Reserved where
  /-- 1. `op` = 15 in either format -/
  | op15
  /-- 2. format R with an operation that has format F only -/
  | notInFormatR
  /-- 3. format F with BANKREAD or BANKWRITE -/
  | notInFormatF
  /-- 4. COM or DOUBLE with `K` not 0 -/
  | operandNotZero
  /-- 5. SETSB with any of bits 12:2 of `K` set -/
  | flagFieldTooWide
  /-- 6. a packed reference of tag `11`, or of tag `10` with any of bits 18:1 set -/
  | badReference
  /-- 7. BANKREAD or BANKWRITE with a reference that is not Banked -/
  | notBanked
  deriving DecidableEq, Repr

/-! ### Packed references -/

/-- Bit 18 of a packed Banked reference (R83): 0 names the erasable store, 1 the fixed store. -/
def storeBit : Store → BitVec 1
  | .erasable => 0#1
  | .fixed => 1#1

/-- The store a bit names (R83). -/
def storeOfBit (t : BitVec 1) : Store :=
  if t = 0#1 then .erasable else .fixed

/-- Packing (R81 to R84): tag in bits 20:19, then the fields of the form. -/
def pack : Ref → PackedRef
  | .direct a => 0b00#2 ++ BitVec.ofNat 18 a
  | .banked t b o => 0b01#2 ++ (storeBit t ++ (BitVec.ofNat 7 b ++ BitVec.ofNat 10 o))
  | .deadBank => 0b10#2 ++ 0#18

/-- Unpacking (R81 to R84): `none` for a packed value that is reserved (R84). -/
def unpack (p : PackedRef) : Option Ref :=
  match (p.extractLsb' 18 2).toNat with
  | 0 => some (.direct (p.extractLsb' 0 18).toNat)
  | 1 => some (.banked (storeOfBit (p.extractLsb' 17 1)) (p.extractLsb' 10 7).toNat (p.extractLsb' 0 10).toNat)
  | 2 => if p.extractLsb' 0 18 = 0#18 then some .deadBank else none
  | _ => none

/-! ### The decoder -/

/-- Format F (R87): `op` in bits 16:13, `K` in bits 12:1; bits 24:17 are ignored. The operations by `op` are
those of R89. -/
def decodeF (w : CmdWord) : Except Reserved Instr :=
  let k := (w.extractLsb' 0 12).toNat
  match (w.extractLsb' 12 4).toNat with
  | 0 => .ok (.readF k)
  | 1 => .ok (.writeF k)
  | 2 => .ok (.deduce k)
  | 3 => .ok (.adF k)
  | 4 => if k = 0 then .ok .com else .error .operandNotZero
  | 5 => .ok (.incrF k)
  | 6 => .ok (.augF k)
  | 7 => .ok (.dimF k)
  | 8 => .ok (.suF k)
  | 9 => if k = 0 then .ok .double else .error .operandNotZero
  | 10 => .ok (.regread k)
  | 11 => .ok (.regwrite k)
  | 12 => .error .notInFormatF
  | 13 => .error .notInFormatF
  | 14 => if k < 2 then .ok (.setsb (k == 1)) else .error .flagFieldTooWide
  | _ => .error .op15

/-- An operation of format R on the reference packed in `p` (R88). -/
def decodeRefOp (p : PackedRef) (mk : Ref → Instr) : Except Reserved Instr :=
  match unpack p with
  | some ref => .ok (mk ref)
  | none => .error .badReference

/-- BANKREAD and BANKWRITE require tag `01` (R88, R91 item 7). A reserved packed reference is refused as such
first (R91 item 6); either way the command is an InvalidCommand. -/
def decodeBankOp (p : PackedRef) (mk : Store → Nat → Nat → Instr) : Except Reserved Instr :=
  match unpack p with
  | some (.banked t b o) => .ok (mk t b o)
  | some (.direct _) => .error .notBanked
  | some .deadBank => .error .notBanked
  | none => .error .badReference

/-- Format R (R88): `op` in bits 24:21, the packed reference in bits 20:1. -/
def decodeR (w : CmdWord) : Except Reserved Instr :=
  let p := w.extractLsb' 0 20
  match (w.extractLsb' 20 4).toNat with
  | 0 => decodeRefOp p .readR
  | 1 => decodeRefOp p .writeR
  | 2 => .error .notInFormatR
  | 3 => decodeRefOp p .adR
  | 4 => .error .notInFormatR
  | 5 => decodeRefOp p .incrR
  | 6 => decodeRefOp p .augR
  | 7 => decodeRefOp p .dimR
  | 8 => decodeRefOp p .suR
  | 9 => .error .notInFormatR
  | 10 => .error .notInFormatR
  | 11 => .error .notInFormatR
  | 12 => decodeBankOp p .bankread
  | 13 => decodeBankOp p .bankwrite
  | 14 => .error .notInFormatR
  | _ => .error .op15

/-- The decoder (R90): `cmd_form` selects the format, nothing in `cmd` does (R92). -/
def decode (form : Format) (w : CmdWord) : Except Reserved Instr :=
  match form with
  | .field => decodeF w
  | .reference => decodeR w

/-! ### The encoder -/

/-- A format F word (R87). Bits 24:17 of `cmd`, which format F ignores, are driven 0. -/
def wordF (op : BitVec 4) (k : Nat) : CmdWord :=
  0#8 ++ (op ++ BitVec.ofNat 12 k)

/-- A format R word (R88). -/
def wordR (op : BitVec 4) (ref : Ref) : CmdWord :=
  op ++ pack ref

/-- The signals `cmd_form` and `cmd` that stand for a well-formed instruction (R87 to R89). -/
def encode : Instr → Format × CmdWord
  | .readF k => (.field, wordF 0b0000#4 k)
  | .writeF k => (.field, wordF 0b0001#4 k)
  | .deduce k => (.field, wordF 0b0010#4 k)
  | .adF k => (.field, wordF 0b0011#4 k)
  | .com => (.field, wordF 0b0100#4 0)
  | .incrF k => (.field, wordF 0b0101#4 k)
  | .augF k => (.field, wordF 0b0110#4 k)
  | .dimF k => (.field, wordF 0b0111#4 k)
  | .suF k => (.field, wordF 0b1000#4 k)
  | .double => (.field, wordF 0b1001#4 0)
  | .regread n => (.field, wordF 0b1010#4 n)
  | .regwrite n => (.field, wordF 0b1011#4 n)
  | .setsb b => (.field, wordF 0b1110#4 b.toNat)
  | .readR ref => (.reference, wordR 0b0000#4 ref)
  | .writeR ref => (.reference, wordR 0b0001#4 ref)
  | .adR ref => (.reference, wordR 0b0011#4 ref)
  | .incrR ref => (.reference, wordR 0b0101#4 ref)
  | .augR ref => (.reference, wordR 0b0110#4 ref)
  | .dimR ref => (.reference, wordR 0b0111#4 ref)
  | .suR ref => (.reference, wordR 0b1000#4 ref)
  | .bankread t b o => (.reference, wordR 0b1100#4 (.banked t b o))
  | .bankwrite t b o => (.reference, wordR 0b1101#4 (.banked t b o))

/-! ### Words of the opcode table -/

/-- The format of a table row, told by how many bits the table gives it: a row of at most 16 bits is of
format F, a longer one of format R (the rows have 16 and 24 bits). -/
def tableFormat (nbits : Nat) : Format :=
  if nbits ≤ 16 then .field else .reference

/-- The command whose `cmd` bits are `w`, numbered as spec/opcode_table.json numbers them. -/
def tableCommand (nbits w : Nat) (din : BitVec 16) : Command :=
  ⟨tableFormat nbits, BitVec.ofNat 24 w, din⟩

/-- The instruction the decoder reads from the `nbits` bits `w` of a row of spec/opcode_table.json; `none` for a
reserved encoding and for a length no row has. -/
def decodeTableWord (nbits w : Nat) : Option Instr :=
  if nbits = 16 ∨ nbits = 24 then (decode (tableFormat nbits) (BitVec.ofNat 24 w)).toOption else none

end Sys2Proof
end

