-- ==== Sys2Proof/Machine/Params.lean ====
section
/-!
DEFINITION. The values of the implementation parameters (spec/00_scope.md R4): the sizes of the two stores, the
shape masks, the default configuration and the reset values.
-/

namespace Sys2Proof.Machine

/-- `E_BANKS` and `F_BANKS` (R4, R38, R39): how many banks of a store exist. -/
def numBanks : Store → Nat
  | .erasable => 8
  | .fixed => 36

/-- `E_SIZE` and `F_SIZE` (R4, R38, R39): the words of one bank. -/
def bankSize : Store → Nat
  | .erasable => 256
  | .fixed => 1024

/-- The legal bits of EBANK, bits 11 to 9 (R18). -/
def ebankMask : Nat := 0o03400

/-- The legal bits of BBANK, bits 15 to 11 and 3 to 1 (R21). -/
def bbankMask : Nat := 0o76007

/-- The end of the erasable part of the unswitched space (R51, R54). -/
def erasableDirectEnd : Nat := 0o1400

/-- The start of the fixed part of the unswitched space (R51, R55). -/
def fixedDirectStart : Nat := 0o4000

/-- The end of the unswitched space (R51, R55). -/
def fixedDirectEnd : Nat := 0o10000

/-- The largest live fixed bank number, `0o43` = 35 (R57); the raw numbers above it are dead. -/
def lastLiveBank : Nat := 0o43

/-- The bank number from which the superbank flag takes effect (R57). -/
def superbankStart : Nat := 0o30

/-- What the superbank flag adds to a bank number (R57). -/
def superbankStep : Nat := 0o10

/-- The default `REGMAP` (R12, R85): PRESUMED from the historical machine by the spec itself, decision D1
(notes/assumptions/3.md). Address `0o7` names no cell (decision D2, notes/assumptions/4.md). -/
def defaultRegMap : List (Nat × Reg) :=
  [(0o0, .a), (0o1, .l), (0o2, .q), (0o3, .ebank), (0o4, .fbank), (0o5, .z), (0o6, .bbank), (0o10, .arupt),
   (0o11, .lrupt), (0o12, .qrupt), (0o13, .samptime1), (0o14, .samptime2), (0o15, .zrupt), (0o16, .bbrupt),
   (0o17, .brupt), (0o20, .cyr), (0o21, .sr), (0o22, .cyl), (0o23, .edop)]

/-- All 19 cells (R10), the default of `validReg` (R4, decision D3, notes/assumptions/5.md). -/
def allRegs : List Reg :=
  [.a, .q, .l, .ebank, .fbank, .z, .bbank, .arupt, .lrupt, .qrupt, .samptime1, .samptime2, .zrupt, .bbrupt, .brupt,
   .cyr, .sr, .cyl, .edop]

/-- The default configuration of R4: `REG_LIMIT` = `0o24`, every cell valid, `FF_BASE` = 0 (decisions D1 to D4). -/
def defaultConfig : Config :=
  { regMap := defaultRegMap, regLimit := 0o24, validRegs := allRegs, ffBase := 0 }

/-- `RESET_REG` (R4, R42): DESIGN CHOICE of the spec, decision D7 (notes/assumptions/7.md). -/
def resetReg : Nat := 0

/-- `RESET_SB` (R4, R42): DESIGN CHOICE of the spec, decision D7 (notes/assumptions/7.md). -/
def resetSb : Bool := false

end Sys2Proof.Machine
end

