-- ==== Sys2Proof/Machine/State.lean ====
section
/-!
DEFINITION. State: everything the spec gives the block (spec/10_state.md R10 to R44, spec/30_encoding.md R86), as
plain data; the errors an operation can fail with (spec/60_exceptions.md R160 to R165); the machine after reset.
-/

namespace Sys2Proof.Machine

/-- One bank store (R38, R39): the cells that hold another word than an unlisted one reads as, by cell number
(bank times bank size plus offset, `cellIndex`), the numbers strictly rising. The block has no bytes (R68): the
entry is the spec's smallest addressable unit, a 15-bit word (notes/assumptions/9.md). -/
abbrev Memory := List (Nat × Word)

/-- The error kinds of R160, with the information the spec writes in parentheses beside each. An error is no stop of
the machine: it aborts one operation and is reported on `err` (R166, R169; `takeError`). -/
inductive Err where
  /-- ValueTooWide(value, width) (R161), raised by `assertWidth` -/
  | valueTooWide (v n : Nat)
  /-- InvalidShape(value, mask) (R162), raised by `assertShape` -/
  | invalidShape (v m : Nat)
  /-- InvalidBank(index) (R163) -/
  | invalidBank (b : Nat)
  /-- AddressOutOfBounds(address or offset) (R164) -/
  | addressOutOfBounds (a : Nat)
  /-- InvalidCommand (R165), a reserved encoding -/
  | invalidCommand
  deriving DecidableEq, Repr

/-- The reasons for which the machine would stop with a fault: there are none, so the type has no constructor. The
block "never stops accepting operations and never hangs" (R196); an operation that fails is answered with an error
code and the block is at once ready for the next one (R166, R169). Safe: the model refuses to run nothing the spec
runs. -/
inductive Fault
  deriving DecidableEq, Repr

/-- The reasons for which the model would give an instruction no meaning. Every instruction of the table has one, so
no step raises this refusal. -/
inductive Refusal where
  /-- An instruction without a meaning, by its mnemonic; raised by an arm of `exec` only, and by none at present.
  Safe: the machine stops where the hardware goes on. -/
  | notModelled (mnemonic : String)
  deriving DecidableEq, Repr

/-- The machine. The 18 stored register cells hold words of their stored width (R11, R13); BBANK holds nothing of its
own (R11, R34). -/
structure State where
  /-- the construction-time configuration (R4, R43): no step writes it (notes/assumptions/2.md) -/
  cfg : Config
  /-- A, the accumulator with its overflow bit (R15) -/
  a : BitVec 16
  /-- Q, with its overflow bit (R16) -/
  q : BitVec 16
  /-- L (R17) -/
  l : BitVec 15
  /-- EBANK: the erasable bank number in bits 11 to 9 (R18, R37) -/
  ebank : BitVec 15
  /-- FBANK: the fixed bank number (R19, R37) -/
  fbank : BitVec 5
  /-- Z, a passive 12-bit cell (R20, R36) -/
  z : BitVec 12
  /-- ARUPT, a plain cell (R22) -/
  arupt : BitVec 15
  /-- LRUPT, a plain cell (R23) -/
  lrupt : BitVec 15
  /-- QRUPT, a plain cell (R24) -/
  qrupt : BitVec 15
  /-- SAMPTIME_1, a plain cell (R25) -/
  samptime1 : BitVec 15
  /-- SAMPTIME_2, a plain cell (R26) -/
  samptime2 : BitVec 15
  /-- ZRUPT, a plain cell (R27) -/
  zrupt : BitVec 15
  /-- BBRUPT, a plain cell (R28) -/
  bbrupt : BitVec 15
  /-- BRUPT, a plain cell (R29) -/
  brupt : BitVec 15
  /-- CYR: the last written word rotated right (R30) -/
  cyr : BitVec 15
  /-- SR: the last written word shifted right (R31) -/
  sr : BitVec 15
  /-- CYL: the last written word rotated left (R32) -/
  cyl : BitVec 15
  /-- EDOP: bits 14 to 8 of the last written word (R33) -/
  edop : BitVec 7
  /-- SB, the superbank flag (R41) -/
  sb : Bool
  /-- the erasable store E (R38) -/
  erasable : Memory
  /-- the fixed store F (R39) -/
  fixed : Memory
  /-- the commands the caller has chosen to present next, in order (R150, R185, R196). The MODEL's own field: the
  block has no queue, the list is the caller's program (notes/assumptions/1.md). -/
  pending : List Command
  /-- the input signals `cmd_form`, `cmd` and `din` of the command last presented (R86) -/
  port : Command
  /-- the output signal `dout` (R86) -/
  dout : BitVec 16
  /-- the output signal `ref_out` (R86) -/
  refOut : BitVec 20
  /-- the output signal `err` (R86, R160) -/
  err : BitVec 3
  deriving DecidableEq, Repr

/-- A machine built with the configuration `cfg`, right after reset (R42, R180): every cell of both stores 0, every
stored register `RESET_REG`, the superbank flag `RESET_SB`. The spec gives the port's signals no value before the
first command; here they are 0 (DESIGN CHOICE, notes/assumptions/8.md). -/
def State.resetWith (cfg : Config) : State where
  cfg := cfg
  a := BitVec.ofNat 16 resetReg
  q := BitVec.ofNat 16 resetReg
  l := BitVec.ofNat 15 resetReg
  ebank := BitVec.ofNat 15 resetReg
  fbank := BitVec.ofNat 5 resetReg
  z := BitVec.ofNat 12 resetReg
  arupt := BitVec.ofNat 15 resetReg
  lrupt := BitVec.ofNat 15 resetReg
  qrupt := BitVec.ofNat 15 resetReg
  samptime1 := BitVec.ofNat 15 resetReg
  samptime2 := BitVec.ofNat 15 resetReg
  zrupt := BitVec.ofNat 15 resetReg
  bbrupt := BitVec.ofNat 15 resetReg
  brupt := BitVec.ofNat 15 resetReg
  cyr := BitVec.ofNat 15 resetReg
  sr := BitVec.ofNat 15 resetReg
  cyl := BitVec.ofNat 15 resetReg
  edop := BitVec.ofNat 7 resetReg
  sb := resetSb
  erasable := []
  fixed := []
  pending := []
  port := ⟨.field, 0#24, 0#16⟩
  dout := 0#16
  refOut := 0#20
  err := 0#3

/-- The machine right after reset (R42, R180), built with the default configuration of R4. -/
def State.reset : State :=
  State.resetWith defaultConfig

end Sys2Proof.Machine
end

