-- ==== Sys2Proof/Machine/Alu.lean ====
section
/-!
DEFINITION. The pure functions of the block (spec/40_alu_primitives.md R100 to R107): the two checks of BitAssertions,
the five transforms of OnesComplementMath and the end-around-carry adder.
-/

namespace Sys2Proof.Machine

/-! ### BitAssertions -/

/-- `assertWidth(v, n)` (R100), over all natural numbers: no set bit of `v` lies above bit `n`. -/
def assertWidth (v n : Nat) : Except Err Unit :=
  if v &&& (2 ^ n - 1) = v then .ok () else .error (.valueTooWide v n)

/-- `assertShape(v, m)` (R101): every set bit of `v` is a set bit of `m`. -/
def assertShape (v m : Nat) : Except Err Unit :=
  if v &&& m = v then .ok () else .error (.invalidShape v m)

/-- The check that begins every use of a value as a word of width `n`, and the word (`zext_n`, R7). -/
def asWord (n v : Nat) : Except Err (BitVec n) := do
  assertWidth v n
  pure (BitVec.ofNat n v)

/-! ### OnesComplementMath

The width check with which each of the five begins is `asWord 15` at its caller (R161). -/

/-- `signExtend(w)`, `sext_16` (R102): bit 15 is copied into bit 16. -/
def signExtend (w : Word) : Acc :=
  w.setWidth 16 ||| ((w.setWidth 16 &&& 0o40000#16) <<< 1)

/-- `cycleRight(w)` (R103): bit 1 moves to bit 15, every other bit `k` to bit `k - 1`. -/
def cycleRight (w : Word) : Word :=
  (w >>> 1) ||| ((w &&& 1#15) <<< 14)

/-- `cycleLeft(w)` (R104): bit 15 moves to bit 1, every other bit `k` to bit `k + 1`. -/
def cycleLeft (w : Word) : Word :=
  (w <<< 1) ||| (w >>> 14)

/-- `shiftRight(w)` (R105): logical, bit 15 of the result is 0. -/
def shiftRight (w : Word) : Word :=
  w >>> 1

/-- `edop(w)` (R106): bits 14 to 8 of `w`, as a 7-bit word (decision D12). -/
def edop (w : Word) : BitVec 7 :=
  w.extractLsb' 7 7

/-! ### One's-complement arithmetic -/

/-- `not_n(v)` (R7): inversion, which is negation in one's complement (R6). -/
def notWord {n : Nat} (v : BitVec n) : BitVec n :=
  ~~~v

/-- `eac_add_n(a, b)` (R107): the natural-number sum, a carry out of bit `n` dropped and added back into bit 1. -/
def eacAdd {n : Nat} (a b : BitVec n) : BitVec n :=
  let s := a.toNat + b.toNat
  if 2 ^ n ≤ s then BitVec.ofNat n (s - 2 ^ n + 1) else BitVec.ofNat n s

/-- The word +1 of width `n`, the addend of INCR (R144). -/
def plusOne (n : Nat) : BitVec n :=
  BitVec.ofNat n 1

/-- The word −1 of width `n`, `not_n(1)` = `2^n - 2` (R145, conflict C3 and decision D13). -/
def minusOne (n : Nat) : BitVec n :=
  notWord (plusOne n)

end Sys2Proof.Machine
end

