-- ==== Sys2Proof/Machine/Flags.lean ====
section
/-!
DEFINITION. Flags: the block has no condition codes (spec/10_state.md R35). What stands in their place is a property of
a word's bit pattern: its sign, whether it is a zero, the overflow signature of a 16-bit word (R109), and the integer a
word denotes (R108).
-/

namespace Sys2Proof.Machine

/-- The overflow bit, bit 16 (R5, R35). -/
def overflowBit (v : Acc) : Bool :=
  v.getLsbD 15

/-- The nominal sign, bit 15 (R5, R35). -/
def nominalSign (v : Acc) : Bool :=
  v.getLsbD 14

/-- `ovf(v)`, the overflow signature (R35, R109): bits 16 and 15 differ. No operation evaluates it. -/
def ovf (v : Acc) : Bool :=
  overflowBit v != nominalSign v

/-- Positive overflow, `0o040000` to `0o077777` (R35). -/
def positiveOverflow (v : Acc) : Bool :=
  !overflowBit v && nominalSign v

/-- Negative overflow, `0o100000` to `0o137777` (R35). -/
def negativeOverflow (v : Acc) : Bool :=
  overflowBit v && !nominalSign v

/-- The authoritative sign of a word of width `n`, `bit[n](v)` (R145, R146): bit 16 of a wide operand, bit 15 of a
narrow one. -/
def authoritativeSign {n : Nat} (v : BitVec n) : Bool :=
  v.msb

/-- Exactly +0 or −0 at the word's true width (R146, decision D15). -/
def isZero {n : Nat} (v : BitVec n) : Bool :=
  v == 0#n || v == BitVec.allOnes n

/-- The integer a one's-complement word denotes (R108): `v` itself, or minus its inversion if bit `n` is set. -/
def value {n : Nat} (v : BitVec n) : Int :=
  if authoritativeSign v then -((notWord v).toNat : Int) else (v.toNat : Int)

end Sys2Proof.Machine
end

