-- ==== Sys2Proof/Machine/Ops.lean ====
section
/-!
DEFINITION. The named operations over the state: the answer of a completed operation and the taking of an error
(spec/60_exceptions.md), the stores, the register cells (spec/10_state.md), address resolution and the generic read and
write (spec/20_memory.md).
-/

namespace Sys2Proof.Machine

/-! ### Answers and errors -/

/-- The code of an error on the signal `err` (R160). Code 0 says that the operation completed. -/
def errCode : Err → BitVec 3
  | .valueTooWide _ _ => 1#3
  | .invalidShape _ _ => 2#3
  | .invalidBank _ => 3#3
  | .addressOutOfBounds _ => 4#3
  | .invalidCommand => 5#3

/-- The answer of an operation that completed (R86): `dout` and `ref_out` as given, `err` = 0. -/
def answer (s : State) (d : BitVec 16) (r : PackedRef) : State :=
  { s with dout := d, refOut := r, err := 0#3 }

/-- Taking an error (R166, R169): no register cell, no storage cell and not SB changes; the outputs are `dout` = 0,
`ref_out` = 0 and `err` = the code. Nothing is saved, no mode changes and control goes nowhere; there is no return from
an error, since there is nothing to return from (R170). -/
def takeError (s : State) (e : Err) : State :=
  { s with dout := 0#16, refOut := 0#20, err := errCode e }

/-- The end of an operation begun in `s` (R160): its state if it completed, and otherwise `s` with the error taken. -/
def conclude (s : State) (r : Except Err State) : Host.Outcome State Fault Refusal :=
  match r with
  | .ok s' => .next s'
  | .error e => .next (takeError s e)

/-- A reserved encoding (R91, R165): InvalidCommand, and no part of the operation is evaluated. -/
def rejectCommand (s : State) : Host.Outcome State Fault Refusal :=
  conclude s (.error .invalidCommand)

/-! ### The command port -/

/-- The caller presents the command `c` on the input signals; `rest` is what it will present afterwards (R86, R185). -/
def present (s : State) (c : Command) (rest : List Command) : State :=
  { s with port := c, pending := rest }

/-- The block between commands (R172): no command is presented and nothing changes. -/
def idle (s : State) : Host.Outcome State Fault Refusal :=
  .next s

/-- The signal `din` as the natural number the operations use (R93). -/
def dataIn (s : State) : Nat :=
  s.port.din.toNat

/-! ### Stores -/

/-- What a cell that nothing has written reads as: 0, the reset contents of both stores (R42). -/
def unlistedWord : Word := 0#15

/-- The word in cell number `i`. -/
def readCell (m : Memory) (i : Nat) : Word :=
  match m with
  | [] => unlistedWord
  | (k, w) :: t => if k = i then w else readCell t i

/-- Cell number `i` taken out of the list. -/
def eraseCell (m : Memory) (i : Nat) : Memory :=
  m.filter fun c => c.1 != i

/-- The cell `(i, v)` put in its place by cell number. -/
def insertCell (m : Memory) (i : Nat) (v : Word) : Memory :=
  match m with
  | [] => [(i, v)]
  | (k, w) :: t => if i < k then (i, v) :: (k, w) :: t else (k, w) :: insertCell t i v

/-- The store with the word `v` in cell number `i`. Writing the word an unlisted cell reads as removes the entry. -/
def writeCell (m : Memory) (i : Nat) (v : Word) : Memory :=
  if v = unlistedWord then eraseCell m i else insertCell (eraseCell m i) i v

/-- The canonical form of a store: cell numbers strictly rising, no entry equal to what an unlisted cell reads as. -/
def Memory.wf (m : Memory) : Bool :=
  decide (m.Pairwise fun c d => c.1 < d.1) && m.all fun c => c.2 != unlistedWord

/-- Every listed cell number is below `n`: no cell is listed that the store does not have (R38, R39). -/
def Memory.within (m : Memory) (n : Nat) : Bool :=
  m.all fun c => decide (c.1 < n)

/-- The cells of a store (R38, R39): 2048 of erasable storage, 36864 of fixed storage. -/
def numCells (t : Store) : Nat :=
  numBanks t * bankSize t

/-- The cell number of offset `o` of bank `b`. -/
def cellIndex (t : Store) (b o : Nat) : Nat :=
  b * bankSize t + o

/-- The contents of a store. -/
def storeOf (s : State) : Store → Memory
  | .erasable => s.erasable
  | .fixed => s.fixed

/-- The state with other contents of one store; the other store is separate (R40). -/
def withStore (s : State) (t : Store) (m : Memory) : State :=
  match t with
  | .erasable => { s with erasable := m }
  | .fixed => { s with fixed := m }

/-- `E[b][o]` and `F[b][o]` (R7): the word in a cell. -/
def cell (s : State) (t : Store) (b o : Nat) : Word :=
  readCell (storeOf s t) (cellIndex t b o)

/-- `t[b][o] <- v`: the state with a word in a cell. -/
def setCell (s : State) (t : Store) (b o : Nat) (v : Word) : State :=
  withStore s t (writeCell (storeOf s t) (cellIndex t b o) v)

/-- Retrieval of a cell by bank and offset (R40, R60): InvalidBank first, then AddressOutOfBounds (decisions D11 and
D19). -/
def checkCell (t : Store) (b o : Nat) : Except Err Unit :=
  if numBanks t ≤ b then .error (.invalidBank b)
  else if bankSize t ≤ o then .error (.addressOutOfBounds o)
  else .ok ()

/-- `readBanked(t, b, o)` (R60). -/
def readBanked (s : State) (t : Store) (b o : Nat) : Except Err Word := do
  checkCell t b o
  pure (cell s t b o)

/-- `writeBanked(t, b, o, v)` (R62): fixed storage drops the word (R63), after the checks. -/
def writeBanked (s : State) (t : Store) (b o : Nat) (v : Word) : Except Err State := do
  checkCell t b o
  match t with
  | .erasable => pure (setCell s .erasable b o v)
  | .fixed => pure s

/-! ### Register cells -/

/-- `isRegAddr(a)` (R53). -/
def isRegAddr (cfg : Config) (a : Nat) : Bool :=
  decide (a < cfg.regLimit)

/-- `regAt(a)` (R53): the cell `REGMAP` puts at `a`. -/
def regAt (cfg : Config) (a : Nat) : Option Reg :=
  cfg.regMap.lookup a

/-- `validReg(r)` (R53). -/
def validReg (cfg : Config) (r : Reg) : Bool :=
  cfg.validRegs.contains r

/-- The usable register address (R53): the cell at `a`, if `a` is a register address that names a cell valid for the
variant; otherwise AddressOutOfBounds, "never silently corrected" (R58, R62, R123, R124). -/
def usableReg (cfg : Config) (a : Nat) : Except Err Reg :=
  match regAt cfg a with
  | some r => if isRegAddr cfg a && validReg cfg r then .ok r else .error (.addressOutOfBounds a)
  | none => .error (.addressOutOfBounds a)

/-- `x[BBANK]` (R34): `(FBANK << 10) | (EBANK >> 8)`, computed at every read. -/
def bbank (s : State) : Word :=
  (s.fbank.setWidth 15 <<< 10) ||| (s.ebank >>> 8)

/-- `x[r]`, the raw read (R14): the stored value, or the computed one for BBANK. A and Q have 16 bits, every other cell
has 15 or fewer. -/
def readReg (s : State) : Reg → Acc
  | .a => s.a
  | .q => s.q
  | .l => s.l.setWidth 16
  | .ebank => s.ebank.setWidth 16
  | .fbank => s.fbank.setWidth 16
  | .z => s.z.setWidth 16
  | .bbank => (bbank s).setWidth 16
  | .arupt => s.arupt.setWidth 16
  | .lrupt => s.lrupt.setWidth 16
  | .qrupt => s.qrupt.setWidth 16
  | .samptime1 => s.samptime1.setWidth 16
  | .samptime2 => s.samptime2.setWidth 16
  | .zrupt => s.zrupt.setWidth 16
  | .bbrupt => s.bbrupt.setWidth 16
  | .brupt => s.brupt.setWidth 16
  | .cyr => s.cyr.setWidth 16
  | .sr => s.sr.setWidth 16
  | .cyl => s.cyl.setWidth 16
  | .edop => s.edop.setWidth 16

/-- `x[L] <- v` (R17): the "16th bit accepted, then dropped". -/
def writeL (s : State) (v : Nat) : Except Err State := do
  let w ← asWord 16 v
  pure { s with l := w.setWidth 15 }

/-- `x[EBANK] <- v` (R18): width, then shape. -/
def writeEbank (s : State) (v : Nat) : Except Err State := do
  let w ← asWord 15 v
  assertShape v ebankMask
  pure { s with ebank := w }

/-- `x[FBANK] <- v` (R19): the bank number itself, in bits 5 to 1. -/
def writeFbank (s : State) (v : Nat) : Except Err State := do
  let w ← asWord 5 v
  pure { s with fbank := w }

/-- `x[BBANK] <- v` (R21): width, shape, then FBANK from bits 15 to 11 and EBANK from bits 3 to 1. -/
def writeBbank (s : State) (v : Nat) : Except Err State := do
  assertWidth v 15
  assertShape v bbankMask
  let s' ← writeFbank s (v >>> 10)
  writeEbank s' ((v &&& 0o7) <<< 8)

/-- `x[r] <- v`, the raw write of a register cell by its own write rule (R15 to R33), over all natural numbers. The
checks run in the order written; the first that fails aborts the write and nothing is stored (R166). -/
def writeReg (s : State) (r : Reg) (v : Nat) : Except Err State :=
  match r with
  | .a => do let w ← asWord 16 v; pure { s with a := w }
  | .q => do let w ← asWord 16 v; pure { s with q := w }
  | .l => writeL s v
  | .ebank => writeEbank s v
  | .fbank => writeFbank s v
  | .z => do let w ← asWord 12 v; pure { s with z := w }
  | .bbank => writeBbank s v
  | .arupt => do let w ← asWord 15 v; pure { s with arupt := w }
  | .lrupt => do let w ← asWord 15 v; pure { s with lrupt := w }
  | .qrupt => do let w ← asWord 15 v; pure { s with qrupt := w }
  | .samptime1 => do let w ← asWord 15 v; pure { s with samptime1 := w }
  | .samptime2 => do let w ← asWord 15 v; pure { s with samptime2 := w }
  | .zrupt => do let w ← asWord 15 v; pure { s with zrupt := w }
  | .bbrupt => do let w ← asWord 15 v; pure { s with bbrupt := w }
  | .brupt => do let w ← asWord 15 v; pure { s with brupt := w }
  | .cyr => do let w ← asWord 15 v; pure { s with cyr := cycleRight w }
  | .sr => do let w ← asWord 15 v; pure { s with sr := shiftRight w }
  | .cyl => do let w ← asWord 15 v; pure { s with cyl := cycleLeft w }
  | .edop => do let w ← asWord 15 v; pure { s with edop := edop w }

/-! ### Address resolution -/

/-- The erasable bank EBANK selects, `EBANK >> 8` (R18, R56). -/
def erasableBank (s : State) : Nat :=
  s.ebank.toNat >>> 8

/-- The raw fixed bank number (R57): FBANK, plus `0o10` if it is at least `0o30` and SB is set. -/
def rawFixedBank (s : State) : Nat :=
  if superbankStart ≤ s.fbank.toNat ∧ s.sb = true then s.fbank.toNat + superbankStep else s.fbank.toNat

/-- Fixed switched resolution (R57): the raw banks above `0o43` are dead. -/
def fixedSwitched (s : State) (o : Nat) : Ref :=
  if lastLiveBank < rawFixedBank s then .deadBank else .banked .fixed (rawFixedBank s) o

/-- `deduceAddress(K)` (R56): reads EBANK, FBANK and SB, writes nothing. -/
def deduceAddress (s : State) (k : Nat) : Except Err Ref := do
  assertWidth k 12
  if k &&& 0o6000 = 0 then
    if k &&& 0o1400 = 0o1400 then
      pure (.banked .erasable (erasableBank s) (k &&& 0o377))
    else
      pure (.direct k)
  else if k &&& 0o4000 ≠ 0 then
    pure (.direct k)
  else
    pure (fixedSwitched s (k &&& 0o1777))

/-- The canonical Banked form of a Direct address that is no register address (R54, R55), and AddressOutOfBounds for
one outside the mapped ranges (R65). -/
def canonDirect (cfg : Config) (a : Nat) : Except Err (Store × Nat × Nat) :=
  if a < erasableDirectEnd then .ok (.erasable, a >>> 8, a &&& 0o377)
  else if fixedDirectStart ≤ a ∧ a < fixedDirectEnd then
    .ok (.fixed, cfg.ffBase + ((a - fixedDirectStart) >>> 10), a &&& 0o1777)
  else .error (.addressOutOfBounds a)

/-! ### The generic path -/

/-- Reading a register cell through the generic path (R58, R59): A and Q lose bit 16, every other cell has no such
bit. -/
def readRegMasked (s : State) (r : Reg) : Word :=
  (readReg s r).setWidth 15

/-- `read(ref)`, `MemRead(ref, 1)` (R58 to R61, R65): one word, no change of state. -/
def readWord (s : State) (ref : Ref) : Except Err Word :=
  match ref with
  | .direct a =>
    if isRegAddr s.cfg a then do
      let r ← usableReg s.cfg a
      pure (readRegMasked s r)
    else do
      let (t, b, o) ← canonDirect s.cfg a
      readBanked s t b o
  | .banked t b o => readBanked s t b o
  | .deadBank => pure 0#15

/-- `write(ref, v)`, `MemWrite(ref, 1, v)` (R62 to R65): the 15-bit width check comes first, whatever the target
(decision D11). -/
def writeWord (s : State) (ref : Ref) (v : Nat) : Except Err State := do
  let w ← asWord 15 v
  match ref with
  | .direct a =>
    if isRegAddr s.cfg a then do
      let r ← usableReg s.cfg a
      writeReg s r v
    else do
      let (t, b, o) ← canonDirect s.cfg a
      writeBanked s t b o w
  | .banked t b o => writeBanked s t b o w
  | .deadBank => pure s

end Sys2Proof.Machine
end

