-- ==== Sys2Proof/Machine/Operands.lean ====
section
/-!
DEFINITION. Operands of the arithmetic operations (spec/42_arithmetic_ops.md R140, R141): their true width, the path by
which they are read and written, and the addition path into A.
-/

namespace Sys2Proof.Machine

/-- An operand's value at its true width (R140): 16 bits for A and Q, 15 for everything else. -/
inductive Operand where
  /-- the raw 16 bits of A or Q -/
  | wide (v : Acc)
  /-- a word of the generic path -/
  | narrow (v : Word)
  deriving DecidableEq, Repr

/-- The operand's value as a natural number. -/
def Operand.toNat : Operand → Nat
  | .wide v => v.toNat
  | .narrow w => w.toNat

/-- A function of words applied at the operand's true width. -/
def Operand.map (f : (n : Nat) → BitVec n → BitVec n) : Operand → Operand
  | .wide v => .wide (f 16 v)
  | .narrow w => .narrow (f 15 w)

/-- The operand is exactly +0 or −0 at its true width (R146). -/
def Operand.isZero : Operand → Bool
  | .wide v => Machine.isZero v
  | .narrow w => Machine.isZero w

/-- `regOf(ref)` (R53): the register cell a Direct register address names. -/
def regOf (cfg : Config) : Ref → Option Reg
  | .direct a => if isRegAddr cfg a then regAt cfg a else none
  | .banked _ _ _ => none
  | .deadBank => none

/-- `wide(ref)` (R140): the reference names A or Q (decision D16). -/
def isWide (cfg : Config) (ref : Ref) : Bool :=
  regOf cfg ref == some .a || regOf cfg ref == some .q

/-- The register address of a wide reference; `none` for a narrow one. -/
def wideAddr (cfg : Config) (ref : Ref) : Option Nat :=
  match ref with
  | .direct a => if isWide cfg (.direct a) then some a else none
  | .banked _ _ _ => none
  | .deadBank => none

/-- `loadOperand(ref)` (R140): the raw read for a wide reference, with the variant test of the generic path, and the
generic read for any other. -/
def loadOperand (s : State) (ref : Ref) : Except Err Operand :=
  match wideAddr s.cfg ref with
  | some a => do
    let r ← usableReg s.cfg a
    pure (.wide (readReg s r))
  | none => do
    let w ← readWord s ref
    pure (.narrow w)

/-- `storeOperand(ref, v)` (R140): the raw write, verbatim, for a wide reference; the generic write, with all its
rules, for any other. -/
def storeOperand (s : State) (ref : Ref) (v : Operand) : Except Err State :=
  match wideAddr s.cfg ref with
  | some a => do
    let r ← usableReg s.cfg a
    writeReg s r v.toNat
  | none => writeWord s ref v.toNat

/-- An operand as AD adds it (R142): a wide one raw, a narrow one sign-extended. -/
def Operand.addend : Operand → Acc
  | .wide v => v
  | .narrow w => signExtend w

/-- An operand as SU adds it (R147): a wide one inverted raw (decision D17), a narrow one inverted and then
sign-extended. -/
def Operand.negated : Operand → Acc
  | .wide v => notWord v
  | .narrow w => signExtend (notWord w)

/-- `addToA(y)` (R141): the sum goes into A verbatim, "overflow preserved uncorrected". -/
def addToA (s : State) (y : Acc) : Except Err State :=
  writeReg s .a (eacAdd s.a y).toNat

end Sys2Proof.Machine
end

