-- ==== Sys2Proof/Machine/Access.lean ====
section
/-!
DEFINITION. The access operations (spec/41_memory_ops.md R120 to R127): READ, WRITE, DEDUCE, REGREAD, REGWRITE, BANKREAD,
BANKWRITE and SETSB. In format F the reference is `deduceAddress(K)`, computed in the same step (R87).
-/

namespace Sys2Proof.Machine

/-! ### Shared between the two formats of one operation -/

/-- READ on a reference (R120): `dout` is the word of the generic read. -/
def readRef (s : State) (ref : Ref) : Except Err State := do
  let w ← readWord s ref
  pure (answer s (w.setWidth 16) 0#20)

/-- WRITE on a reference (R121): the generic write of `din`. -/
def writeRef (s : State) (ref : Ref) : Except Err State := do
  let s' ← writeWord s ref (dataIn s)
  pure (answer s' 0#16 0#20)

/-! ### The instructions -/

/-- READ, format F (R120). -/
def execReadF (k : Nat) (s : State) : Host.Outcome State Fault Refusal :=
  conclude s do
    let ref ← deduceAddress s k
    readRef s ref

/-- READ, format R (R120). -/
def execReadR (ref : Ref) (s : State) : Host.Outcome State Fault Refusal :=
  conclude s (readRef s ref)

/-- WRITE, format F (R121). `deduceAddress` cannot fail on the 12-bit field of a command, so the width check of `din`
is the first that can (R167). -/
def execWriteF (k : Nat) (s : State) : Host.Outcome State Fault Refusal :=
  conclude s do
    let ref ← deduceAddress s k
    writeRef s ref

/-- WRITE, format R (R121). -/
def execWriteR (ref : Ref) (s : State) : Host.Outcome State Fault Refusal :=
  conclude s (writeRef s ref)

/-- DEDUCE (R122): `ref_out` is the packed reference, a snapshot (R190); no register or cell changes. -/
def execDeduce (k : Nat) (s : State) : Host.Outcome State Fault Refusal :=
  conclude s do
    let ref ← deduceAddress s k
    pure (answer s 0#16 (pack ref))

/-- REGREAD (R123): the raw read, all 16 bits of A and Q. -/
def execRegread (n : Nat) (s : State) : Host.Outcome State Fault Refusal :=
  conclude s do
    let r ← usableReg s.cfg n
    pure (answer s (readReg s r) 0#20)

/-- REGWRITE (R124): the raw write of `din` by the cell's own rule, with no 15-bit limit of its own. -/
def execRegwrite (n : Nat) (s : State) : Host.Outcome State Fault Refusal :=
  conclude s do
    let r ← usableReg s.cfg n
    let s' ← writeReg s r (dataIn s)
    pure (answer s' 0#16 0#20)

/-- BANKREAD (R125): the raw bank read. -/
def execBankread (t : Store) (b o : Nat) (s : State) : Host.Outcome State Fault Refusal :=
  conclude s do
    let w ← readBanked s t b o
    pure (answer s (w.setWidth 16) 0#20)

/-- BANKWRITE (R126): width, bank and offset are checked in this order; then the word is stored, fixed storage
included. -/
def execBankwrite (t : Store) (b o : Nat) (s : State) : Host.Outcome State Fault Refusal :=
  conclude s do
    let w ← asWord 15 (dataIn s)
    checkCell t b o
    pure (answer (setCell s t b o w) 0#16 0#20)

/-- SETSB (R127): the superbank flag (decision D8). -/
def execSetsb (b : Bool) (s : State) : Host.Outcome State Fault Refusal :=
  conclude s (.ok (answer { s with sb := b } 0#16 0#20))

end Sys2Proof.Machine
end

