-- ==== Sys2Proof/Machine/Arithmetic.lean ====
section
/-!
DEFINITION. The seven arithmetic operations (spec/42_arithmetic_ops.md R142 to R148): AD, COM, INCR, AUG, DIM, SU and
DOUBLE. In every one all reads and checks come before the single store (R151).
-/

namespace Sys2Proof.Machine

/-! ### What INCR, AUG and DIM make of a word of width n -/

/-- INCR (R144): the word plus 1. -/
def incrWord (n : Nat) (v : BitVec n) : BitVec n :=
  eacAdd v (plusOne n)

/-- AUG (R145): plus 1 if the authoritative sign is 0, else plus −1, the word `2^n - 2` (decision D13). No overflow
correction (R149). -/
def augWord (n : Nat) (v : BitVec n) : BitVec n :=
  eacAdd v (if authoritativeSign v then minusOne n else plusOne n)

/-- DIM of a word that is not a zero (R146): plus −1 if the authoritative sign is 0, else plus 1. -/
def dimWord (n : Nat) (v : BitVec n) : BitVec n :=
  eacAdd v (if authoritativeSign v then plusOne n else minusOne n)

/-! ### Shared between the two formats of one operation -/

/-- The answer of an arithmetic operation: "none return a value". -/
def done (s : State) : State :=
  answer s 0#16 0#20

/-- AD on a reference (R142). -/
def adRef (s : State) (ref : Ref) : Except Err State := do
  let op ← loadOperand s ref
  let s' ← addToA s op.addend
  pure (done s')

/-- SU on a reference (R147). -/
def suRef (s : State) (ref : Ref) : Except Err State := do
  let op ← loadOperand s ref
  let s' ← addToA s op.negated
  pure (done s')

/-- INCR on a reference (R144). -/
def incrRef (s : State) (ref : Ref) : Except Err State := do
  let op ← loadOperand s ref
  let s' ← storeOperand s ref (op.map incrWord)
  pure (done s')

/-- AUG on a reference (R145). -/
def augRef (s : State) (ref : Ref) : Except Err State := do
  let op ← loadOperand s ref
  let s' ← storeOperand s ref (op.map augWord)
  pure (done s')

/-- DIM on a reference (R146): a zero operand is not written back (decision D15). -/
def dimRef (s : State) (ref : Ref) : Except Err State := do
  let op ← loadOperand s ref
  if op.isZero then
    pure (done s)
  else do
    let s' ← storeOperand s ref (op.map dimWord)
    pure (done s')

/-! ### The instructions -/

/-- AD, format F (R142). -/
def execAdF (k : Nat) (s : State) : Host.Outcome State Fault Refusal :=
  conclude s do
    let ref ← deduceAddress s k
    adRef s ref

/-- AD, format R (R142). -/
def execAdR (ref : Ref) (s : State) : Host.Outcome State Fault Refusal :=
  conclude s (adRef s ref)

/-- COM (R143): all 16 bits of A inverted, the overflow bit included. -/
def execCom (s : State) : Host.Outcome State Fault Refusal :=
  conclude s do
    let s' ← writeReg s .a (notWord s.a).toNat
    pure (done s')

/-- INCR, format F (R144). -/
def execIncrF (k : Nat) (s : State) : Host.Outcome State Fault Refusal :=
  conclude s do
    let ref ← deduceAddress s k
    incrRef s ref

/-- INCR, format R (R144). -/
def execIncrR (ref : Ref) (s : State) : Host.Outcome State Fault Refusal :=
  conclude s (incrRef s ref)

/-- AUG, format F (R145). -/
def execAugF (k : Nat) (s : State) : Host.Outcome State Fault Refusal :=
  conclude s do
    let ref ← deduceAddress s k
    augRef s ref

/-- AUG, format R (R145). -/
def execAugR (ref : Ref) (s : State) : Host.Outcome State Fault Refusal :=
  conclude s (augRef s ref)

/-- DIM, format F (R146). -/
def execDimF (k : Nat) (s : State) : Host.Outcome State Fault Refusal :=
  conclude s do
    let ref ← deduceAddress s k
    dimRef s ref

/-- DIM, format R (R146). -/
def execDimR (ref : Ref) (s : State) : Host.Outcome State Fault Refusal :=
  conclude s (dimRef s ref)

/-- SU, format F (R147). -/
def execSuF (k : Nat) (s : State) : Host.Outcome State Fault Refusal :=
  conclude s do
    let ref ← deduceAddress s k
    suRef s ref

/-- SU, format R (R147). -/
def execSuR (ref : Ref) (s : State) : Host.Outcome State Fault Refusal :=
  conclude s (suRef s ref)

/-- DOUBLE (R148): A added to itself through the addition path of AD (decision D14). -/
def execDouble (s : State) : Host.Outcome State Fault Refusal :=
  conclude s do
    let s' ← addToA s s.a
    pure (done s')

end Sys2Proof.Machine
end

