-- ==== Sys2Proof/Machine/Dispatch.lean ====
section
/-! DEFINITION. Dispatch: one arm per constructor of Instr, each one direct call of the instruction's own meaning. -/

namespace Sys2Proof.Machine

def exec (i : Instr) (s : State) : Host.Outcome State Fault Refusal :=
  match i with
  | .readF k => Sys2Proof.Machine.execReadF k s
  | .writeF k => Sys2Proof.Machine.execWriteF k s
  | .deduce k => Sys2Proof.Machine.execDeduce k s
  | .adF k => Sys2Proof.Machine.execAdF k s
  | .com => Sys2Proof.Machine.execCom s
  | .incrF k => Sys2Proof.Machine.execIncrF k s
  | .augF k => Sys2Proof.Machine.execAugF k s
  | .dimF k => Sys2Proof.Machine.execDimF k s
  | .suF k => Sys2Proof.Machine.execSuF k s
  | .double => Sys2Proof.Machine.execDouble s
  | .regread n => Sys2Proof.Machine.execRegread n s
  | .regwrite n => Sys2Proof.Machine.execRegwrite n s
  | .setsb b => Sys2Proof.Machine.execSetsb b s
  | .readR ref => Sys2Proof.Machine.execReadR ref s
  | .writeR ref => Sys2Proof.Machine.execWriteR ref s
  | .adR ref => Sys2Proof.Machine.execAdR ref s
  | .incrR ref => Sys2Proof.Machine.execIncrR ref s
  | .augR ref => Sys2Proof.Machine.execAugR ref s
  | .dimR ref => Sys2Proof.Machine.execDimR ref s
  | .suR ref => Sys2Proof.Machine.execSuR ref s
  | .bankread t b o => Sys2Proof.Machine.execBankread t b o s
  | .bankwrite t b o => Sys2Proof.Machine.execBankwrite t b o s

end Sys2Proof.Machine
end

