-- ==== Sys2Proof/Machine/Port.lean ====
section
/-!
DEFINITION. The command port (spec/30_encoding.md R86, R90): what the block does with the command on its input signals.
-/

namespace Sys2Proof.Machine

/-- The command that stands on the port, decoded and performed; a reserved encoding is answered with InvalidCommand
before any part of an operation is evaluated (R90, R91, R165). -/
def runPort (s : State) : Host.Outcome State Fault Refusal :=
  match decode s.port.form s.port.cmd with
  | .ok i => exec i s
  | .error _ => rejectCommand s

/-- `s` with the command `c` as the one the caller presents next. -/
def withNextCommand (s : State) (c : Command) : State :=
  { s with pending := c :: s.pending }

end Sys2Proof.Machine
end

