-- ==== Sys2Proof/Machine/Step.lean ====
section
/-!
DEFINITION. Step: one command is one atomic step (spec/70_reset_and_hazards.md R195). The block fetches nothing (R2): a
step presents the caller's next command on the port, decodes it and performs it.
-/

namespace Sys2Proof.Machine

/-- One step (R86, R195): the caller presents its next command and the block performs it. With no command to present
the block is idle (R172). -/
def step (s : State) : Host.Outcome State Fault Refusal :=
  match s.pending with
  | [] => idle s
  | c :: rest => runPort (present s c rest)

/-- `s` with the command word of an opcode table row as the command the next step presents; `din` stays what it is.
How a program comes to run: notes/assumptions/1.md. -/
def State.withFetchWord (s : State) (nbits w : Nat) : State :=
  withNextCommand s (tableCommand nbits w s.port.din)

end Sys2Proof.Machine
end

