-- ==== Sys2Proof/Safety.lean ====
section
/-!
DEFINITION. Safety: the terms the claims are stated in. The invariant of the machine; what a field and a reference name,
written from the tables of the spec (R12, R51, R57) and not from the machine's own bit tests; the two formats of one
operation as one notion.
-/

namespace Sys2Proof.Machine

/-! ### The invariant -/

/-- EBANK holds no bit outside its field (R18, R37). -/
def EbankInShape (s : State) : Prop :=
  s.ebank &&& 0o03400#15 = s.ebank

/-- Bit 15 of SR is 0 (R31: "bit 15 of the stored value is always 0"). -/
def SrInShape (s : State) : Prop :=
  s.sr.getLsbD 14 = false

/-- Each store is in its canonical form and lists no cell the spec does not give it (R38, R39). -/
def StoresCanonical (s : State) : Prop :=
  s.erasable.wf = true ∧ s.erasable.within 2048 = true ∧ s.fixed.wf = true ∧ s.fixed.within 36864 = true

/-- The output signals read as R86, R91 and R166 say: `err` is a code of R160, both data outputs are 0 on an error, and
no command drives both. -/
def OutputsConsistent (s : State) : Prop :=
  s.err.toNat ≤ 5 ∧ (s.err ≠ 0#3 → s.dout = 0#16 ∧ s.refOut = 0#20) ∧ (s.dout = 0#16 ∨ s.refOut = 0#20)

/-- The invariant every step keeps and every reset machine has. -/
structure Inv (s : State) : Prop where
  ebank : EbankInShape s
  sr : SrInShape s
  stores : StoresCanonical s
  outputs : OutputsConsistent s

/-! ### Register cells -/

/-- What a register cell holds, as a natural number (R14), BBANK composed from FBANK and EBANK (R34, R37). -/
def cellValue (s : State) : Reg → Nat
  | .a => s.a.toNat
  | .q => s.q.toNat
  | .l => s.l.toNat
  | .ebank => s.ebank.toNat
  | .fbank => s.fbank.toNat
  | .z => s.z.toNat
  | .bbank => s.fbank.toNat * 1024 + s.ebank.toNat / 256
  | .arupt => s.arupt.toNat
  | .lrupt => s.lrupt.toNat
  | .qrupt => s.qrupt.toNat
  | .samptime1 => s.samptime1.toNat
  | .samptime2 => s.samptime2.toNat
  | .zrupt => s.zrupt.toNat
  | .bbrupt => s.bbrupt.toNat
  | .brupt => s.brupt.toNat
  | .cyr => s.cyr.toNat
  | .sr => s.sr.toNat
  | .cyl => s.cyl.toNat
  | .edop => s.edop.toNat

/-- The register cell a usable register address names (R53); `none` for any other address. -/
def regAtAddress (cfg : Config) (a : Nat) : Option Reg :=
  if a < cfg.regLimit then (cfg.regMap.lookup a).filter fun r => cfg.validRegs.contains r else none

/-! ### The write rules of the register cells -/

/-- A width check in front of a write: the state after it, or the code of ValueTooWide (R160, R161). -/
def fits (v n : Nat) (t : State) : Except (BitVec 3) State :=
  if v < 2 ^ n then .ok t else .error 1#3

/-- What writing the natural number `v` to a register cell does, by the table of R13 and in arithmetic: the state after
it, or the code of the error (1 ValueTooWide, 2 InvalidShape). The shape of EBANK is a bank number below 8 times 256
(R18); that of BBANK leaves bits 10 to 4 zero (R21). -/
def writeRule (s : State) (v : Nat) : Reg → Except (BitVec 3) State
  | .a => fits v 16 { s with a := BitVec.ofNat 16 v }
  | .q => fits v 16 { s with q := BitVec.ofNat 16 v }
  | .l => fits v 16 { s with l := BitVec.ofNat 15 (v % 32768) }
  | .ebank =>
    if 2 ^ 15 ≤ v then .error 1#3
    else if v % 256 = 0 ∧ v < 8 * 256 then .ok { s with ebank := BitVec.ofNat 15 v }
    else .error 2#3
  | .fbank => fits v 5 { s with fbank := BitVec.ofNat 5 v }
  | .z => fits v 12 { s with z := BitVec.ofNat 12 v }
  | .bbank =>
    if 2 ^ 15 ≤ v then .error 1#3
    else if v / 8 % 128 = 0 then
      .ok { s with fbank := BitVec.ofNat 5 (v / 1024), ebank := BitVec.ofNat 15 (v % 8 * 256) }
    else .error 2#3
  | .arupt => fits v 15 { s with arupt := BitVec.ofNat 15 v }
  | .lrupt => fits v 15 { s with lrupt := BitVec.ofNat 15 v }
  | .qrupt => fits v 15 { s with qrupt := BitVec.ofNat 15 v }
  | .samptime1 => fits v 15 { s with samptime1 := BitVec.ofNat 15 v }
  | .samptime2 => fits v 15 { s with samptime2 := BitVec.ofNat 15 v }
  | .zrupt => fits v 15 { s with zrupt := BitVec.ofNat 15 v }
  | .bbrupt => fits v 15 { s with bbrupt := BitVec.ofNat 15 v }
  | .brupt => fits v 15 { s with brupt := BitVec.ofNat 15 v }
  | .cyr => fits v 15 { s with cyr := BitVec.ofNat 15 (v / 2 + v % 2 * 16384) }
  | .sr => fits v 15 { s with sr := BitVec.ofNat 15 (v / 2) }
  | .cyl => fits v 15 { s with cyl := BitVec.ofNat 15 (v * 2 % 32768 + v / 16384) }
  | .edop => fits v 15 { s with edop := BitVec.ofNat 7 (v / 128 % 128) }

/-! ### What a field and a reference name -/

/-- The reference of a switched fixed field, by the table of R57. -/
def switchedFixedRef (s : State) (o : Nat) : Ref :=
  if s.sb = false then .banked .fixed s.fbank.toNat o
  else if s.fbank.toNat < 0o30 then .banked .fixed s.fbank.toNat o
  else if s.fbank.toNat < 0o34 then .banked .fixed (s.fbank.toNat + 8) o
  else .deadBank

/-- The reference of a 12-bit field, by the map of R51. -/
def fieldRef (s : State) (k : Nat) : Ref :=
  if k < 0o1400 then .direct k
  else if k < 0o2000 then .banked .erasable (s.ebank.toNat / 256) (k % 256)
  else if k < 0o4000 then switchedFixedRef s (k % 1024)
  else .direct k

/-- The register cell a reference names, if it names a usable one (R53). -/
def refReg (cfg : Config) : Ref → Option Reg
  | .direct a => regAtAddress cfg a
  | .banked _ _ _ => none
  | .deadBank => none

/-- The storage cell a reference names, if it names an existing one (R54, R55, R60, R65): store, bank and offset. -/
def refCell (cfg : Config) : Ref → Option (Store × Nat × Nat)
  | .direct a =>
    if a < cfg.regLimit then none
    else if a < 0o1400 then some (.erasable, a / 256, a % 256)
    else if 0o4000 ≤ a ∧ a < 0o10000 ∧ cfg.ffBase + (a - 0o4000) / 1024 < 36 then
      some (.fixed, cfg.ffBase + (a - 0o4000) / 1024, a % 1024)
    else none
  | .banked t b o => if b < numBanks t ∧ o < bankSize t then some (t, b, o) else none
  | .deadBank => none

/-- The operand a reference names, at its true width (R140); `none` for a reference that cannot be read. -/
def operandOf (s : State) (ref : Ref) : Option Operand :=
  match refReg s.cfg ref with
  | some .a => some (.wide s.a)
  | some .q => some (.wide s.q)
  | some r => some (.narrow (BitVec.ofNat 15 (cellValue s r)))
  | none =>
    match refCell s.cfg ref with
    | some (t, b, o) => some (.narrow (cell s t b o))
    | none => if ref = .deadBank then some (.narrow 0#15) else none

/-- The code of the error with which a reference that names nothing is refused (R58, R60, R65, R163, R164). A direct
fixed address can only fail in a configuration whose `FF_BASE` names a bank beyond the store. -/
def refErrCode (cfg : Config) : Ref → BitVec 3
  | .direct a => if cfg.regLimit ≤ a ∧ 0o4000 ≤ a ∧ a < 0o10000 then 3#3 else 4#3
  | .banked t b _ => if numBanks t ≤ b then 3#3 else 4#3
  | .deadBank => 0#3

/-! ### The two formats of one operation -/

/-- `i` is the operation with the formats `mkF` and `mkR`, and acts on the reference `ref`: in format R by carrying it,
in format F by a 12-bit field that resolves to it in the state `s` (R87, R88). -/
def ActsOn (s : State) (ref : Ref) (mkF : Nat → Instr) (mkR : Ref → Instr) (i : Instr) : Prop :=
  i = mkR ref ∨ ∃ k, k < 2 ^ 12 ∧ fieldRef s k = ref ∧ i = mkF k

/-- The operations that have both formats (R89, R93), as pairs of the field form and the reference form. -/
def bothFormats : List ((Nat → Instr) × (Ref → Instr)) :=
  [(.readF, .readR), (.writeF, .writeR), (.adF, .adR), (.incrF, .incrR), (.augF, .augR), (.dimF, .dimR), (.suF, .suR)]

/-- `i` is INCR, AUG, or DIM of an operand that is not a zero, on the reference `ref`, and `f` is what it makes of a word
(R144 to R146). -/
def Modifies (s : State) (ref : Ref) (i : Instr) (f : (n : Nat) → BitVec n → BitVec n) : Prop :=
  (ActsOn s ref .incrF .incrR i ∧ f = incrWord) ∨ (ActsOn s ref .augF .augR i ∧ f = augWord) ∨
    (ActsOn s ref .dimF .dimR i ∧ f = dimWord ∧ ∃ op, operandOf s ref = some op ∧ op.isZero = false)

/-! ### Answers -/

/-- The state after an operation that completed and returns nothing (R86): the outputs are 0. -/
def completed (s : State) : State :=
  { s with dout := 0#16, refOut := 0#20, err := 0#3 }

/-- The state after an operation that failed with the error code `e` (R166). -/
def failed (s : State) (e : BitVec 3) : State :=
  { s with dout := 0#16, refOut := 0#20, err := e }

end Sys2Proof.Machine
end

