-- ==== Sys2Proof/Certificates/Slice0/Obligations.lean ====
section
/-!
DEFINITION. Obligations: the statements for the provers. The terms (`fieldRef`, `refCell`, `refReg`, `operandOf`,
`writeRule`, `ActsOn`, `Modifies`, `completed`, `failed`, `Inv`) stand in Sys2Proof/Safety.lean.

`completed s` is `s` with the outputs of an operation that returns nothing; `{ completed s with f := x }` therefore says
that, beside the outputs, the field `f` alone changes: every register cell, the flag, both stores, the configuration and
the caller's list are as they were.
-/

open Sys2Proof Sys2Proof.Machine

/-! ### Encoding (30_encoding.md; the bit patterns are the spec's decision D9, notes/assumptions/10.md) -/

/-- R87 to R89: what is encoded decodes to itself, every operand at every value the encoding admits. -/
def Obligations.DecodeOfEncode : Prop :=
  ∀ i : Instr, i.wf = true → decode (encode i).1 (encode i).2 = .ok i

/-- R87 to R89, R92: a word that decodes is the encoding of what it decodes to, up to bits 24:17 of format F, which are
ignored. Each word has one meaning. -/
def Obligations.EncodeOfDecode : Prop :=
  ∀ (w : CmdWord) (i : Instr),
    (decode .reference w = .ok i → i.wf = true ∧ encode i = (.reference, w)) ∧
    (decode .field w = .ok i → i.wf = true ∧ encode i = (.field, 0#8 ++ w.extractLsb' 0 16))

/-- R91: the reserved encodings are exactly the seven classes, told by the numbers in the fields. -/
def Obligations.ReservedEncodingsAreTheSevenClasses : Prop :=
  ∀ w : CmdWord,
    ((∃ r, decode .field w = .error r) ↔
      (w.toNat / 4096 % 16 = 15 ∨ w.toNat / 4096 % 16 = 12 ∨ w.toNat / 4096 % 16 = 13 ∨
        ((w.toNat / 4096 % 16 = 4 ∨ w.toNat / 4096 % 16 = 9) ∧ w.toNat % 4096 ≠ 0) ∨
        (w.toNat / 4096 % 16 = 14 ∧ 2 ≤ w.toNat % 4096))) ∧
    ((∃ r, decode .reference w = .error r) ↔
      (w.toNat / 2 ^ 20 ∈ [15, 2, 4, 9, 10, 11, 14] ∨ w.toNat / 2 ^ 18 % 4 = 3 ∨
        (w.toNat / 2 ^ 18 % 4 = 2 ∧ w.toNat % 2 ^ 18 ≠ 0) ∨
        (w.toNat / 2 ^ 20 ∈ [12, 13] ∧ w.toNat / 2 ^ 18 % 4 ≠ 1)))

/-- Words of spec/95_test_vectors.md 2.7 and Part 3, one or more of each family, decode to the commands the spec names
for them. -/
def Obligations.SampleWordsDecode : Prop :=
  decode .field 0x3040#24 = .ok (.adF 0o100) ∧
  decode .field 0x13FF#24 = .ok (.writeF 0o1777) ∧
  decode .field 0x4000#24 = .ok .com ∧
  decode .field 0x9000#24 = .ok .double ∧
  decode .field 0xA000#24 = .ok (.regread 0) ∧
  decode .field 0xB006#24 = .ok (.regwrite 6) ∧
  decode .field 0xE001#24 = .ok (.setsb true) ∧
  decode .field 0x23FF#24 = .ok (.deduce 0o1777) ∧
  decode .reference 0x040CFF#24 = .ok (.readR (.banked .erasable 3 0o377)) ∧
  decode .reference 0x380000#24 = .ok (.adR .deadBank) ∧
  decode .reference 0x001000#24 = .ok (.readR (.direct 0o10000)) ∧
  decode .reference 0xD6000F#24 = .ok (.bankwrite .fixed 0 0o17)

/-- R86, R87: in format F, bits 24:17 of `cmd` are ignored. -/
def Obligations.FormatFIgnoresTheHighBits : Prop :=
  ∀ w w' : CmdWord, w.extractLsb' 0 16 = w'.extractLsb' 0 16 → decode .field w = decode .field w'

/-- R81 to R84: packing and unpacking a reference are inverse; a packed value with no reference is a reserved one. -/
def Obligations.PackAndUnpackAreInverse : Prop :=
  (∀ ref : Ref, ref.wf = true → unpack (pack ref) = some ref) ∧
  (∀ (p : PackedRef) (ref : Ref), unpack p = some ref → ref.wf = true ∧ pack ref = p) ∧
  (∀ p : PackedRef, unpack p = none ↔ p.toNat / 2 ^ 18 = 3 ∨ (p.toNat / 2 ^ 18 = 2 ∧ p.toNat % 2 ^ 18 ≠ 0))

/-! ### The step (the port and its codes are the spec's decisions D9, D10 and D22: notes/assumptions/10.md, 11.md, 27.md) -/

/-- A step runs the decoded instruction: when the caller's next command decodes to `i`, the step is `exec i` at the
state in which the command stands on the port and the caller's list is moved past it. -/
def Obligations.StepRunsTheDecodedInstruction : Prop :=
  ∀ (s : State) (c : Command) (rest : List Command) (i : Instr),
    s.pending = c :: rest → decode c.form c.cmd = .ok i →
      step s = exec i { s with port := c, pending := rest }

/-- R91, R165: a command with a reserved encoding is answered with InvalidCommand, code 5, both data outputs 0, and
changes nothing else. -/
def Obligations.ReservedCommandIsAnsweredInvalid : Prop :=
  ∀ (s : State) (c : Command) (rest : List Command) (r : Reserved),
    s.pending = c :: rest → decode c.form c.cmd = .error r →
      step s = .next (failed { s with port := c, pending := rest } 5#3)

/-- R196: the block "never stops accepting operations and never hangs": any number of steps can be run from any state,
and each takes one command off the caller's list. -/
def Obligations.RunsNeverStop : Prop :=
  ∀ (n : Nat) (s : State), ∃ t : State,
    Host.Core.run Sys2Proof.core n s = .next t ∧ t.pending = s.pending.drop n

/-- The MODEL's choice (notes/assumptions/1.md; the spec says only that the block is idle between commands, R172): a
step with no command to present changes nothing. -/
def Obligations.IdleStepChangesNothing : Prop :=
  ∀ s : State, s.pending = [] → step s = .next s

/-! ### Invariants and whole-machine rules -/

/-- Every step keeps the invariant: EBANK within its mask (R18), bit 15 of SR zero (R31), both stores in canonical form
and within their size (R38, R39), the outputs consistent (R86, R91, R166). -/
def Obligations.StepKeepsTheInvariant : Prop :=
  ∀ s t : State, Inv s → step s = .next t → Inv t

/-- Every machine right after reset has the invariant, whatever its configuration. -/
def Obligations.ResetHasTheInvariant : Prop :=
  (∀ cfg : Config, Inv (State.resetWith cfg)) ∧ Inv State.reset

/-- R42, the stores: "allocates numBanks zero-initialized arrays"; every cell of both stores reads 0. The registers and
the flag: the zeros are the spec's own choice (decision D7; notes/assumptions/7.md). -/
def Obligations.ResetLeavesZero : Prop :=
  ∀ cfg : Config,
    (∀ (t : Store) (b o : Nat), cell (State.resetWith cfg) t b o = 0#15) ∧
    (∀ r : Reg, cellValue (State.resetWith cfg) r = 0) ∧
    (State.resetWith cfg).sb = false

/-- R43, R86: no operation writes the configuration, the input signals or the caller's list. -/
def Obligations.ExecKeepsConfigurationAndPort : Prop :=
  ∀ (i : Instr) (s t : State), exec i s = .next t →
    t.cfg = s.cfg ∧ t.port = s.port ∧ t.pending = s.pending

/-- R166: an operation that fails changes no register cell, no storage cell and not SB; its data outputs are 0. -/
def Obligations.FailedOperationChangesNoState : Prop :=
  ∀ (i : Instr) (s t : State), exec i s = .next t → t.err ≠ 0#3 → t = failed s t.err

/-- R39, R63: the contents of fixed storage change only through BANKWRITE. -/
def Obligations.FixedStorageChangesOnlyByBankwrite : Prop :=
  ∀ (i : Instr) (s t : State), exec i s = .next t → (∀ b o, i ≠ .bankwrite .fixed b o) → t.fixed = s.fixed

/-- R41, R127: no operation but SETSB writes the superbank flag. -/
def Obligations.SuperbankFlagChangesOnlyBySetsb : Prop :=
  ∀ (i : Instr) (s t : State), exec i s = .next t → (∀ b, i ≠ .setsb b) → t.sb = s.sb

/-- R36, R150: no register cell other than A and the bank cells changes except by an operation that names it; so no
operation touches Z, Q, L, or any plain or editing cell implicitly. -/
def Obligations.RegisterChangesOnlyWhenNamed : Prop :=
  ∀ (i : Instr) (s t : State) (r : Reg), r ∉ [Reg.a, .ebank, .fbank, .bbank] →
    exec i s = .next t → cellValue t r ≠ cellValue s r →
      (∃ n, i = .regwrite n ∧ regAtAddress s.cfg n = some r) ∨
      ∃ ref, refReg s.cfg ref = some r ∧
        (ActsOn s ref .writeF .writeR i ∨ ActsOn s ref .incrF .incrR i ∨ ActsOn s ref .augF .augR i ∨
          ActsOn s ref .dimF .dimR i)

/-- R43: the answer of one command never feeds into a later one; the outputs are no hidden state. -/
def Obligations.OutputsNeverFeedBack : Prop :=
  ∀ (i : Instr) (s : State) (d : BitVec 16) (r : PackedRef) (e : BitVec 3),
    exec i { s with dout := d, refOut := r, err := e } = exec i s

/-- R86: `din` is "ignored by other commands" than WRITE, REGWRITE and BANKWRITE: what stands on the port has no
influence on them, and stays there. -/
def Obligations.OtherCommandsIgnoreTheData : Prop :=
  ∀ (i : Instr) (s t : State) (c : Command),
    (∀ k, i ≠ .writeF k) → (∀ ref, i ≠ .writeR ref) → (∀ n, i ≠ .regwrite n) → (∀ u b o, i ≠ .bankwrite u b o) →
      exec i s = .next t → exec i { s with port := c } = .next { t with port := c }

/-- R86: `dout` is 0 after every command but READ, REGREAD and BANKREAD, `ref_out` after every command but DEDUCE. -/
def Obligations.EachCommandDrivesItsOwnOutput : Prop :=
  ∀ (i : Instr) (s t : State), exec i s = .next t →
    ((∀ k, i ≠ .deduce k) → t.refOut = 0#20) ∧
    ((∀ k, i ≠ .readF k) → (∀ ref, i ≠ .readR ref) → (∀ n, i ≠ .regread n) → (∀ u b o, i ≠ .bankread u b o) →
      t.dout = 0#16)

/-! ### Address resolution (the spec's decisions D5 and D6: notes/assumptions/21.md; D26: 25.md) -/

/-- R56, R57, R122: DEDUCE answers the packed reference the map of R51 and the table of R57 give for the field, and
changes nothing else; the abstract operation refuses a field of 13 bits or more with ValueTooWide. -/
def Obligations.DeduceAnswersTheReferenceOfTheField : Prop :=
  ∀ (s : State) (k : Nat),
    (k < 2 ^ 12 → exec (.deduce k) s = .next { completed s with refOut := pack (fieldRef s k) }) ∧
    (2 ^ 12 ≤ k → exec (.deduce k) s = .next (failed s 1#3))

/-- R95: a command of format F changes state exactly as DEDUCE followed by the operation in format R on the reference
returned. -/
def Obligations.FormatFIsDeduceThenFormatR : Prop :=
  ∀ (s : State) (k : Nat), k < 2 ^ 12 →
    ∃ (t : State) (ref : Ref), exec (.deduce k) s = .next t ∧ unpack t.refOut = some ref ∧
      ∀ op ∈ bothFormats, exec (op.2 ref) t = exec (op.1 k) s

/-- R66: the direct and the banked reference of one cell, and the switched field while the bank register selects that
bank, act alike under every operation. -/
def Obligations.AliasesActAlike : Prop :=
  ∀ (s : State) (a : Nat), s.cfg.regLimit ≤ a → ∀ op ∈ bothFormats,
    (a < 0o1400 → exec (op.2 (.direct a)) s = exec (op.2 (.banked .erasable (a / 256) (a % 256))) s) ∧
    (a < 0o1400 → s.ebank.toNat / 256 = a / 256 →
      exec (op.1 (0o1400 + a % 256)) s = exec (op.2 (.direct a)) s) ∧
    (0o4000 ≤ a → a < 0o10000 →
      exec (op.2 (.direct a)) s =
        exec (op.2 (.banked .fixed (s.cfg.ffBase + (a - 0o4000) / 1024) (a % 1024))) s) ∧
    (0o4000 ≤ a → a < 0o10000 →
      switchedFixedRef s (a % 1024) = .banked .fixed (s.cfg.ffBase + (a - 0o4000) / 1024) (a % 1024) →
        exec (op.1 (0o2000 + a % 1024)) s = exec (op.2 (.direct a)) s)

/-- R67: the register cells and the storage cells under their addresses are different state. A WRITE to a register
address leaves both stores as they were; a WRITE to a Banked reference leaves every register cell as it was. -/
def Obligations.ShadowedCellsAreSeparateState : Prop :=
  ∀ s t : State,
    (∀ a, a < s.cfg.regLimit → exec (.writeR (.direct a)) s = .next t →
      t.erasable = s.erasable ∧ t.fixed = s.fixed) ∧
    (∀ u b o, exec (.writeR (.banked u b o)) s = .next t → ∀ r, cellValue t r = cellValue s r)

/-! ### READ and WRITE (the spec's decisions D11, D18, D19 and D25: notes/assumptions/12.md, 18.md, 23.md) -/

/-- R58 to R61, R120: READ, in either format, completes on every reference that names something and answers the word
there (A and Q without bit 16, a dead bank 0), and nothing else changes. -/
def Obligations.ReadAnswersTheNamedWord : Prop :=
  ∀ (s : State) (ref : Ref) (i : Instr), ActsOn s ref .readF .readR i →
    (∀ t b o, refCell s.cfg ref = some (t, b, o) →
      exec i s = .next { completed s with dout := (cell s t b o).setWidth 16 }) ∧
    (∀ r, refReg s.cfg ref = some r →
      exec i s = .next { completed s with dout := BitVec.ofNat 16 (cellValue s r % 32768) }) ∧
    (ref = .deadBank → exec i s = .next (completed s))

/-- R62 to R64, R121: WRITE, in either format, of a 15-bit word. On an erasable cell it completes and that cell alone
changes; on a fixed cell or a dead bank it completes and nothing is stored; on a register cell the cell's own write rule
decides. -/
def Obligations.WriteStoresTheWordByTarget : Prop :=
  ∀ (s : State) (ref : Ref) (i : Instr), ActsOn s ref .writeF .writeR i → s.port.din.toNat < 2 ^ 15 →
    (∀ b o, refCell s.cfg ref = some (.erasable, b, o) →
      ∃ m : Memory, exec i s = .next { completed s with erasable := m } ∧
        ∀ j, readCell m j =
          if j = cellIndex .erasable b o then s.port.din.setWidth 15 else readCell s.erasable j) ∧
    (∀ b o, refCell s.cfg ref = some (.fixed, b, o) → exec i s = .next (completed s)) ∧
    (ref = .deadBank → exec i s = .next (completed s)) ∧
    (∀ r, refReg s.cfg ref = some r →
      (∀ t, writeRule s s.port.din.toNat r = .ok t → exec i s = .next (completed t)) ∧
      (∀ e, writeRule s s.port.din.toNat r = .error e → exec i s = .next (failed s e)))

/-- R121, R126, R167 (decisions D11 and D18): data of 16 bits is refused with ValueTooWide by WRITE and BANKWRITE
whatever the target. -/
def Obligations.SixteenBitDataIsRefused : Prop :=
  ∀ s : State, 2 ^ 15 ≤ s.port.din.toNat →
    (∀ ref, exec (.writeR ref) s = .next (failed s 1#3)) ∧
    (∀ k, k < 2 ^ 12 → exec (.writeF k) s = .next (failed s 1#3)) ∧
    (∀ t b o, exec (.bankwrite t b o) s = .next (failed s 1#3))

/-- R58, R60, R65, R163, R164, R167: on a reference that names nothing, READ, AD, SU, INCR, AUG and DIM, and WRITE of a
15-bit word, fail with the code of that reference and change nothing. -/
def Obligations.UnusableReferenceIsRefused : Prop :=
  ∀ (s : State) (ref : Ref) (i : Instr), operandOf s ref = none → (∃ op ∈ bothFormats, ActsOn s ref op.1 op.2 i) →
    s.port.din.toNat < 2 ^ 15 → exec i s = .next (failed s (refErrCode s.cfg ref))

/-- R66, R70: a READ returns the word of an earlier WRITE to the same erasable cell, through whichever alias and in
either format. -/
def Obligations.ReadReturnsTheWrittenWord : Prop :=
  ∀ (s t : State) (ref ref' : Ref) (i j : Instr) (b o : Nat),
    refCell s.cfg ref = some (.erasable, b, o) → refCell s.cfg ref' = some (.erasable, b, o) →
    s.port.din.toNat < 2 ^ 15 → ActsOn s ref .writeF .writeR i → exec i s = .next t →
    ActsOn t ref' .readF .readR j → exec j t = .next { completed t with dout := s.port.din }

/-- R62, R124: a WRITE of a 15-bit word to a register address does exactly what REGWRITE of that number does. -/
def Obligations.WriteToRegisterAddressIsRegwrite : Prop :=
  ∀ (s : State) (a : Nat), a < s.cfg.regLimit → s.port.din.toNat < 2 ^ 15 →
    exec (.writeR (.direct a)) s = exec (.regwrite a) s ∧
    (a < 0o1400 → exec (.writeF a) s = exec (.regwrite a) s)

/-! ### The register cells (the spec's decisions D12 and D24: notes/assumptions/13.md, 22.md) -/

/-- R14, R34, R123: REGREAD completes on every usable register number and answers the raw value, all 16 bits of A and Q
and the computed value of BBANK; any other number is AddressOutOfBounds. -/
def Obligations.RegreadAnswersTheRawValue : Prop :=
  ∀ (s : State) (n : Nat),
    (∀ r, regAtAddress s.cfg n = some r →
      exec (.regread n) s = .next { completed s with dout := BitVec.ofNat 16 (cellValue s r) }) ∧
    (regAtAddress s.cfg n = none → exec (.regread n) s = .next (failed s 4#3))

/-- R15 to R33, R124: REGWRITE on a usable register number does what the cell's write rule says; any other number is
AddressOutOfBounds, whatever the data. -/
def Obligations.RegwriteFollowsTheCellsRule : Prop :=
  ∀ (s : State) (n : Nat),
    (∀ r, regAtAddress s.cfg n = some r →
      (∀ t, writeRule s s.port.din.toNat r = .ok t → exec (.regwrite n) s = .next (completed t)) ∧
      (∀ e, writeRule s s.port.din.toNat r = .error e → exec (.regwrite n) s = .next (failed s e))) ∧
    (regAtAddress s.cfg n = none → exec (.regwrite n) s = .next (failed s 4#3))

/-- R15, R16, R17, R124: REGWRITE of A and Q completes for every 16-bit value, bit 16 included; REGWRITE of L completes
too and drops bit 16. -/
def Obligations.RegwriteOfSixteenBitCells : Prop :=
  ∀ (s : State) (n : Nat),
    (regAtAddress s.cfg n = some .a → exec (.regwrite n) s = .next { completed s with a := s.port.din }) ∧
    (regAtAddress s.cfg n = some .q → exec (.regwrite n) s = .next { completed s with q := s.port.din }) ∧
    (regAtAddress s.cfg n = some .l →
      exec (.regwrite n) s = .next { completed s with l := s.port.din.setWidth 15 })

/-- R22 to R29, over all natural numbers: a plain cell holds what is written to it, verbatim; a value of 16 bits or more
is ValueTooWide. -/
def Obligations.PlainCellsHoldTheWrittenWord : Prop :=
  ∀ (s : State) (v : Nat),
    (v < 2 ^ 15 →
      writeReg s .arupt v = .ok { s with arupt := BitVec.ofNat 15 v } ∧
      writeReg s .lrupt v = .ok { s with lrupt := BitVec.ofNat 15 v } ∧
      writeReg s .qrupt v = .ok { s with qrupt := BitVec.ofNat 15 v } ∧
      writeReg s .samptime1 v = .ok { s with samptime1 := BitVec.ofNat 15 v } ∧
      writeReg s .samptime2 v = .ok { s with samptime2 := BitVec.ofNat 15 v } ∧
      writeReg s .zrupt v = .ok { s with zrupt := BitVec.ofNat 15 v } ∧
      writeReg s .bbrupt v = .ok { s with bbrupt := BitVec.ofNat 15 v } ∧
      writeReg s .brupt v = .ok { s with brupt := BitVec.ofNat 15 v }) ∧
    (2 ^ 15 ≤ v → ∀ r ∈ [Reg.arupt, .lrupt, .qrupt, .samptime1, .samptime2, .zrupt, .bbrupt, .brupt],
      writeReg s r v = .error (.valueTooWide v 15))

/-- R30 to R32 (the formula of R103 is an inference of the spec, notes/assumptions/29.md), over all natural numbers:
CYR, SR and CYL hold the rotation right, the logical shift right and the rotation left of the written word; a value of
16 bits or more is ValueTooWide. -/
def Obligations.EditingCellsHoldTheTransform : Prop :=
  ∀ (s : State) (v : Nat),
    (v < 2 ^ 15 →
      writeReg s .cyr v = .ok { s with cyr := BitVec.ofNat 15 ((v >>> 1) ||| ((v &&& 1) <<< 14)) } ∧
      writeReg s .sr v = .ok { s with sr := BitVec.ofNat 15 (v >>> 1) } ∧
      (BitVec.ofNat 15 (v >>> 1)).getLsbD 14 = false ∧
      writeReg s .cyl v = .ok { s with cyl := BitVec.ofNat 15 (((v <<< 1) &&& 0o77777) ||| (v >>> 14)) }) ∧
    (2 ^ 15 ≤ v → ∀ r ∈ [Reg.cyr, .sr, .cyl], writeReg s r v = .error (.valueTooWide v 15))

/-- R20, over all natural numbers: Z holds a 12-bit value verbatim and refuses a wider one. -/
def Obligations.ZHoldsTwelveBits : Prop :=
  ∀ (s : State) (v : Nat),
    (v < 2 ^ 12 → writeReg s .z v = .ok { s with z := BitVec.ofNat 12 v }) ∧
    (2 ^ 12 ≤ v → writeReg s .z v = .error (.valueTooWide v 12))

/-- R34: BBANK always reads `(FBANK << 10) | (EBANK >> 8)`. While EBANK is in its shape, bits 15 to 11 are FBANK, bits 3
to 1 the erasable bank number and bits 10 to 4 are 0. -/
def Obligations.BbankIsComputedFromItsSources : Prop :=
  ∀ s : State,
    (readReg s .bbank).toNat = (s.fbank.toNat <<< 10) ||| (s.ebank.toNat >>> 8) ∧
    (EbankInShape s →
      (readReg s .bbank).toNat / 2 ^ 10 = s.fbank.toNat ∧ (readReg s .bbank).toNat % 8 = s.ebank.toNat / 256 ∧
      (readReg s .bbank).toNat / 8 % 128 = 0)

/-! ### The pure functions -/

/-- R100, R101, over all natural numbers: `assertWidth(v, n)` succeeds exactly when `v < 2^n`, `assertShape(v, m)`
exactly when every set bit of `v` is a set bit of `m`; otherwise each fails with its own error, which records its
arguments. -/
def Obligations.ChecksAcceptExactlyWhatFits : Prop :=
  ∀ v n : Nat,
    (v &&& (2 ^ n - 1) = v ↔ v < 2 ^ n) ∧
    (v < 2 ^ n → assertWidth v n = .ok ()) ∧ (2 ^ n ≤ v → assertWidth v n = .error (.valueTooWide v n)) ∧
    (v &&& n = v ↔ ∀ k, v.testBit k = true → n.testBit k = true) ∧
    ((∀ k, v.testBit k = true → n.testBit k = true) → assertShape v n = .ok ()) ∧
    ((∃ k, v.testBit k = true ∧ n.testBit k = false) → assertShape v n = .error (.invalidShape v n))

/-- R102: `signExtend` copies bit 15 into bit 16 and leaves bits 15 to 1 as they are; the result denotes the same
number; a value of 16 bits or more is refused before it. -/
def Obligations.SignExtendCopiesTheSign : Prop :=
  (∀ w : Word,
    (signExtend w).toNat = w.toNat ||| ((w.toNat &&& 0o40000) <<< 1) ∧
    (signExtend w).getLsbD 15 = w.getLsbD 14 ∧ (signExtend w).setWidth 15 = w ∧ value (signExtend w) = value w) ∧
  (∀ v, 2 ^ 15 ≤ v → asWord 15 v = .error (.valueTooWide v 15))

/-- R103, R104 (the formula of R103 is an inference of the spec, notes/assumptions/29.md): the two rotations move every
bit one place within 15 bits and are inverse to each other; a value of 16 bits or more is refused before them. -/
def Obligations.RotationsAreInverse : Prop :=
  (∀ w : Word,
    cycleRight (cycleLeft w) = w ∧ cycleLeft (cycleRight w) = w ∧
    (cycleRight w).toNat = (w.toNat >>> 1) ||| ((w.toNat &&& 1) <<< 14) ∧
    (cycleLeft w).toNat = ((w.toNat <<< 1) &&& 0o77777) ||| (w.toNat >>> 14) ∧
    (cycleRight w).getLsbD 14 = w.getLsbD 0 ∧ (∀ k < 14, (cycleRight w).getLsbD k = w.getLsbD (k + 1)) ∧
    (cycleLeft w).getLsbD 0 = w.getLsbD 14 ∧ (∀ k < 14, (cycleLeft w).getLsbD (k + 1) = w.getLsbD k)) ∧
  (∀ v, 2 ^ 15 ≤ v → asWord 15 v = .error (.valueTooWide v 15))

/-- R35, R109: the overflow signature of a 16-bit value, its formula and the two ranges it marks (conflict C1,
notes/assumptions/30.md). -/
def Obligations.OverflowSignatureMarksTheTwoRanges : Prop :=
  ∀ v : Acc,
    (ovf v = true ↔ ((v.toNat >>> 15) ^^^ (v.toNat >>> 14)) &&& 1 = 1) ∧
    (positiveOverflow v = true ↔ 0o040000 ≤ v.toNat ∧ v.toNat ≤ 0o077777) ∧
    (negativeOverflow v = true ↔ 0o100000 ≤ v.toNat ∧ v.toNat ≤ 0o137777) ∧
    (ovf v = true ↔ positiveOverflow v = true ∨ negativeOverflow v = true)

/-- R108: what a word denotes, and that the adder returns the word of the true sum whenever it is in range, a sum of
zero being −0 unless both operands are +0; out of range the sum wraps modulo `2^n - 1`. At 16 bits the sum of two
sign-extended words always fits, and it is out of the 15-bit range exactly when the result carries the signature. At 15
bits the range is −16383 to +16383, with two zeros. -/
def Obligations.AdderReturnsTheTrueSum : Prop :=
  (∀ n, n = 15 ∨ n = 16 → ∀ x y : BitVec n,
    (x.toNat < 2 ^ (n - 1) → value x = (x.toNat : Int)) ∧
    (2 ^ (n - 1) ≤ x.toNat → value x = -((2 ^ n - 1 - x.toNat : Nat) : Int)) ∧
    ((value x + value y).natAbs ≤ 2 ^ (n - 1) - 1 → value (eacAdd x y) = value x + value y) ∧
    (value x + value y = 0 → eacAdd x y = if x = 0#n ∧ y = 0#n then 0#n else BitVec.allOnes n) ∧
    ∃ k : Int, value (eacAdd x y) = value x + value y + k * (2 ^ n - 1)) ∧
  (∀ u w : Word,
    value (eacAdd (signExtend u) (signExtend w)) = value u + value w ∧
    (ovf (eacAdd (signExtend u) (signExtend w)) = true ↔ 16383 < (value u + value w).natAbs) ∧
    (value w).natAbs ≤ 16383 ∧ (value w = 0 ↔ w = 0#15 ∨ w = BitVec.allOnes 15))

/-- R144 to R146, R149: what INCR, AUG and DIM make of a word of 15 or 16 bits, as natural numbers and as the numbers
the words denote: plus one; one further from zero; one nearer to zero. Decisions D13 and D15 are the spec's own. -/
def Obligations.IncrAugDimByValue : Prop :=
  ∀ n, n = 15 ∨ n = 16 → ∀ v : BitVec n,
    ((incrWord n v).toNat = if v = BitVec.allOnes n then 1 else v.toNat + 1) ∧
    ((augWord n v).toNat = if 2 ^ (n - 1) ≤ v.toNat then v.toNat - 1 else v.toNat + 1) ∧
    (isZero v = false →
      (dimWord n v).toNat =
        if 2 ^ (n - 1) ≤ v.toNat then v.toNat + 1 else if v.toNat = 1 then 2 ^ n - 1 else v.toNat - 1) ∧
    (value v < 2 ^ (n - 1) - 1 → value (incrWord n v) = value v + 1) ∧
    ((value v).natAbs < 2 ^ (n - 1) - 1 → (value (augWord n v)).natAbs = (value v).natAbs + 1) ∧
    (isZero v = false → (value (dimWord n v)).natAbs + 1 = (value v).natAbs) ∧
    (isZero v = true ↔ value v = 0)

/-! ### The arithmetic operations (the spec's decisions D13 to D17: notes/assumptions/14.md to 17.md) -/

/-- R140 to R142: AD, in either format, completes on every readable reference; A receives the end-around-carry sum, wide
operands raw and narrow ones sign-extended, and nothing else changes. -/
def Obligations.AdAddsTheOperandIntoA : Prop :=
  ∀ (s : State) (ref : Ref) (i : Instr), ActsOn s ref .adF .adR i →
    (∀ v, operandOf s ref = some (.wide v) → exec i s = .next { completed s with a := eacAdd s.a v }) ∧
    (∀ w, operandOf s ref = some (.narrow w) →
      exec i s = .next { completed s with a := eacAdd s.a (signExtend w) })

/-- R140, R141, R147: SU, in either format, completes on every readable reference; A receives the sum with the inverted
operand, and nothing else changes. For a narrow operand inverting and extending come to the same in either order. -/
def Obligations.SuAddsTheInverseIntoA : Prop :=
  ∀ (s : State) (ref : Ref) (i : Instr), ActsOn s ref .suF .suR i →
    (∀ v, operandOf s ref = some (.wide v) →
      exec i s = .next { completed s with a := eacAdd s.a (BitVec.ofNat 16 (0o177777 - v.toNat)) }) ∧
    (∀ w, operandOf s ref = some (.narrow w) →
      exec i s = .next
        { completed s with a := eacAdd s.a (BitVec.ofNat 16 (0o177777 - (signExtend w).toNat)) })

/-- R108, R142, R147: while A holds a sign-extended word, AD and SU of a narrow operand leave in A the word of the true
sum and of the true difference, and A then carries the overflow signature exactly when that number is out of the 15-bit
range. -/
def Obligations.AdAndSuComputeTheTrueResult : Prop :=
  ∀ (s : State) (ref : Ref) (i : Instr) (u w : Word), operandOf s ref = some (.narrow w) → s.a = signExtend u →
    (ActsOn s ref .adF .adR i → ∃ t : State, exec i s = .next t ∧ value t.a = value u + value w ∧
      (ovf t.a = true ↔ 16383 < (value u + value w).natAbs)) ∧
    (ActsOn s ref .suF .suR i → ∃ t : State, exec i s = .next t ∧ value t.a = value u - value w ∧
      (ovf t.a = true ↔ 16383 < (value u - value w).natAbs))

/-- R143: COM always completes, inverts all 16 bits of A and changes nothing else; A then denotes the negated number,
and carries the overflow signature exactly if it did before. -/
def Obligations.ComInvertsA : Prop :=
  ∀ s : State,
    exec .com s = .next { completed s with a := BitVec.ofNat 16 (0o177777 - s.a.toNat) } ∧
    value (BitVec.ofNat 16 (0o177777 - s.a.toNat)) = -value s.a ∧
    ovf (BitVec.ofNat 16 (0o177777 - s.a.toNat)) = ovf s.a

/-- R148: DOUBLE always completes, adds A to itself with end-around carry and changes nothing else. -/
def Obligations.DoubleAddsAToItself : Prop :=
  ∀ s : State, exec .double s = .next { completed s with a := eacAdd s.a s.a }

/-- R95: DOUBLE does exactly what AD of `Direct(0)` does when the map puts A at address 0 (and the variant accepts it).
-/
def Obligations.DoubleIsAdOfA : Prop :=
  ∀ s : State, regAtAddress s.cfg 0 = some .a → exec .double s = exec (.adR (.direct 0)) s

/-- R140, R144 to R146: INCR, AUG and, where the operand is not a zero, DIM of A and of Q complete in either format; the
register receives the 16-bit result verbatim and nothing else changes. -/
def Obligations.IncrAugDimOfWideRegisters : Prop :=
  ∀ (s : State) (ref : Ref) (i : Instr) (f : (n : Nat) → BitVec n → BitVec n), Modifies s ref i f →
    (refReg s.cfg ref = some .a → exec i s = .next { completed s with a := f 16 s.a }) ∧
    (refReg s.cfg ref = some .q → exec i s = .next { completed s with q := f 16 s.q })

/-- R140, R144 to R146: INCR, AUG and, where the operand is not a zero, DIM of an erasable cell complete in either
format; that cell receives the 15-bit result and nothing else changes. -/
def Obligations.IncrAugDimOfErasableCells : Prop :=
  ∀ (s : State) (ref : Ref) (i : Instr) (f : (n : Nat) → BitVec n → BitVec n) (b o : Nat), Modifies s ref i f →
    refCell s.cfg ref = some (.erasable, b, o) →
      ∃ m : Memory, exec i s = .next { completed s with erasable := m } ∧
        ∀ j, readCell m j =
          if j = cellIndex .erasable b o then f 15 (cell s .erasable b o) else readCell s.erasable j

/-- R63, R64, R144 to R146, R192: INCR, AUG and DIM of a fixed cell or of a dead bank complete and store nothing. -/
def Obligations.IncrAugDimOfReadOnlyTargets : Prop :=
  ∀ (s : State) (ref : Ref) (i : Instr) (f : (n : Nat) → BitVec n → BitVec n), Modifies s ref i f →
    (∀ b o, refCell s.cfg ref = some (.fixed, b, o) → exec i s = .next (completed s)) ∧
    (ref = .deadBank → exec i s = .next (completed s))

/-- R140, R144 to R146, R188: INCR, AUG and DIM of a register cell other than A and Q write the 15-bit result by the
cell's own rule, transforms and refusals included. -/
def Obligations.IncrAugDimOfNarrowRegisters : Prop :=
  ∀ (s : State) (ref : Ref) (i : Instr) (f : (n : Nat) → BitVec n → BitVec n) (r : Reg), Modifies s ref i f →
    refReg s.cfg ref = some r → r ≠ .a → r ≠ .q →
      (∀ t, writeRule s (f 15 (BitVec.ofNat 15 (cellValue s r))).toNat r = .ok t →
        exec i s = .next (completed t)) ∧
      (∀ e, writeRule s (f 15 (BitVec.ofNat 15 (cellValue s r))).toNat r = .error e →
        exec i s = .next (failed s e))

/-- R146: DIM of an operand that is exactly +0 or −0 at its true width completes and writes nothing. -/
def Obligations.DimOfZeroWritesNothing : Prop :=
  ∀ (s : State) (ref : Ref) (i : Instr) (op : Operand), ActsOn s ref .dimF .dimR i →
    operandOf s ref = some op → op.isZero = true → exec i s = .next (completed s)

/-! ### The bank port and the superbank flag (the spec's decisions D8, D18 and D19: notes/assumptions/18.md, 24.md) -/

/-- R125: BANKREAD completes on every existing cell and answers its word; a bank that does not exist is InvalidBank, an
offset beyond the bank AddressOutOfBounds; it equals READ in format R on the same reference. -/
def Obligations.BankreadAnswersTheCell : Prop :=
  ∀ (s : State) (t : Store) (b o : Nat),
    (b < numBanks t → o < bankSize t →
      exec (.bankread t b o) s = .next { completed s with dout := (cell s t b o).setWidth 16 }) ∧
    (numBanks t ≤ b → exec (.bankread t b o) s = .next (failed s 3#3)) ∧
    (b < numBanks t → bankSize t ≤ o → exec (.bankread t b o) s = .next (failed s 4#3)) ∧
    exec (.bankread t b o) s = exec (.readR (.banked t b o)) s

/-- R40, R126: BANKWRITE of a 15-bit word completes on every existing cell of either store; that cell alone changes, no
cell of another bank and none of the other store. Otherwise it fails as BANKREAD does. -/
def Obligations.BankwriteStoresTheWord : Prop :=
  ∀ (s : State) (t : Store) (b o : Nat), s.port.din.toNat < 2 ^ 15 →
    (b < numBanks t → o < bankSize t →
      ∃ m : Memory, exec (.bankwrite t b o) s = .next (completed (withStore s t m)) ∧
        (∀ j, readCell m j =
          if j = cellIndex t b o then s.port.din.setWidth 15 else readCell (storeOf s t) j) ∧
        ∀ t' b' o', b' < numBanks t' → o' < bankSize t' →
          cell (withStore s t m) t' b' o' =
            if t' = t ∧ b' = b ∧ o' = o then s.port.din.setWidth 15 else cell s t' b' o') ∧
    (numBanks t ≤ b → exec (.bankwrite t b o) s = .next (failed s 3#3)) ∧
    (b < numBanks t → bankSize t ≤ o → exec (.bankwrite t b o) s = .next (failed s 4#3))

/-- R127: SETSB always completes and writes the superbank flag alone. -/
def Obligations.SetsbWritesTheFlag : Prop :=
  ∀ (s : State) (b : Bool), exec (.setsb b) s = .next { completed s with sb := b }
end

