-- ==== Sys2Proof/Laws/State.lean ====
section
/-!
SUPPORT. Laws of the state: what each named update of State leaves in each field, one lemma per field, true by `rfl`.
-/

namespace Sys2Proof.Machine

/-! ### `answer`: an answer (R86) writes the outputs alone -/

@[simp] theorem answer_cfg (s : State) (d : BitVec 16) (r : PackedRef) : (answer s d r).cfg = s.cfg := rfl
@[simp] theorem answer_a (s : State) (d : BitVec 16) (r : PackedRef) : (answer s d r).a = s.a := rfl
@[simp] theorem answer_q (s : State) (d : BitVec 16) (r : PackedRef) : (answer s d r).q = s.q := rfl
@[simp] theorem answer_l (s : State) (d : BitVec 16) (r : PackedRef) : (answer s d r).l = s.l := rfl
@[simp] theorem answer_ebank (s : State) (d : BitVec 16) (r : PackedRef) : (answer s d r).ebank = s.ebank := rfl
@[simp] theorem answer_fbank (s : State) (d : BitVec 16) (r : PackedRef) : (answer s d r).fbank = s.fbank := rfl
@[simp] theorem answer_z (s : State) (d : BitVec 16) (r : PackedRef) : (answer s d r).z = s.z := rfl
@[simp] theorem answer_arupt (s : State) (d : BitVec 16) (r : PackedRef) : (answer s d r).arupt = s.arupt := rfl
@[simp] theorem answer_lrupt (s : State) (d : BitVec 16) (r : PackedRef) : (answer s d r).lrupt = s.lrupt := rfl
@[simp] theorem answer_qrupt (s : State) (d : BitVec 16) (r : PackedRef) : (answer s d r).qrupt = s.qrupt := rfl
@[simp] theorem answer_samptime1 (s : State) (d : BitVec 16) (r : PackedRef) : (answer s d r).samptime1 = s.samptime1 := rfl
@[simp] theorem answer_samptime2 (s : State) (d : BitVec 16) (r : PackedRef) : (answer s d r).samptime2 = s.samptime2 := rfl
@[simp] theorem answer_zrupt (s : State) (d : BitVec 16) (r : PackedRef) : (answer s d r).zrupt = s.zrupt := rfl
@[simp] theorem answer_bbrupt (s : State) (d : BitVec 16) (r : PackedRef) : (answer s d r).bbrupt = s.bbrupt := rfl
@[simp] theorem answer_brupt (s : State) (d : BitVec 16) (r : PackedRef) : (answer s d r).brupt = s.brupt := rfl
@[simp] theorem answer_cyr (s : State) (d : BitVec 16) (r : PackedRef) : (answer s d r).cyr = s.cyr := rfl
@[simp] theorem answer_sr (s : State) (d : BitVec 16) (r : PackedRef) : (answer s d r).sr = s.sr := rfl
@[simp] theorem answer_cyl (s : State) (d : BitVec 16) (r : PackedRef) : (answer s d r).cyl = s.cyl := rfl
@[simp] theorem answer_edop (s : State) (d : BitVec 16) (r : PackedRef) : (answer s d r).edop = s.edop := rfl
@[simp] theorem answer_sb (s : State) (d : BitVec 16) (r : PackedRef) : (answer s d r).sb = s.sb := rfl
@[simp] theorem answer_erasable (s : State) (d : BitVec 16) (r : PackedRef) : (answer s d r).erasable = s.erasable := rfl
@[simp] theorem answer_fixed (s : State) (d : BitVec 16) (r : PackedRef) : (answer s d r).fixed = s.fixed := rfl
@[simp] theorem answer_pending (s : State) (d : BitVec 16) (r : PackedRef) : (answer s d r).pending = s.pending := rfl
@[simp] theorem answer_port (s : State) (d : BitVec 16) (r : PackedRef) : (answer s d r).port = s.port := rfl
@[simp] theorem answer_dout (s : State) (d : BitVec 16) (r : PackedRef) : (answer s d r).dout = d := rfl
@[simp] theorem answer_refOut (s : State) (d : BitVec 16) (r : PackedRef) : (answer s d r).refOut = r := rfl
@[simp] theorem answer_err (s : State) (d : BitVec 16) (r : PackedRef) : (answer s d r).err = 0#3 := rfl

/-! ### `takeError`: taking an error (R166) writes the outputs alone -/

@[simp] theorem takeError_cfg (s : State) (e : Err) : (takeError s e).cfg = s.cfg := rfl
@[simp] theorem takeError_a (s : State) (e : Err) : (takeError s e).a = s.a := rfl
@[simp] theorem takeError_q (s : State) (e : Err) : (takeError s e).q = s.q := rfl
@[simp] theorem takeError_l (s : State) (e : Err) : (takeError s e).l = s.l := rfl
@[simp] theorem takeError_ebank (s : State) (e : Err) : (takeError s e).ebank = s.ebank := rfl
@[simp] theorem takeError_fbank (s : State) (e : Err) : (takeError s e).fbank = s.fbank := rfl
@[simp] theorem takeError_z (s : State) (e : Err) : (takeError s e).z = s.z := rfl
@[simp] theorem takeError_arupt (s : State) (e : Err) : (takeError s e).arupt = s.arupt := rfl
@[simp] theorem takeError_lrupt (s : State) (e : Err) : (takeError s e).lrupt = s.lrupt := rfl
@[simp] theorem takeError_qrupt (s : State) (e : Err) : (takeError s e).qrupt = s.qrupt := rfl
@[simp] theorem takeError_samptime1 (s : State) (e : Err) : (takeError s e).samptime1 = s.samptime1 := rfl
@[simp] theorem takeError_samptime2 (s : State) (e : Err) : (takeError s e).samptime2 = s.samptime2 := rfl
@[simp] theorem takeError_zrupt (s : State) (e : Err) : (takeError s e).zrupt = s.zrupt := rfl
@[simp] theorem takeError_bbrupt (s : State) (e : Err) : (takeError s e).bbrupt = s.bbrupt := rfl
@[simp] theorem takeError_brupt (s : State) (e : Err) : (takeError s e).brupt = s.brupt := rfl
@[simp] theorem takeError_cyr (s : State) (e : Err) : (takeError s e).cyr = s.cyr := rfl
@[simp] theorem takeError_sr (s : State) (e : Err) : (takeError s e).sr = s.sr := rfl
@[simp] theorem takeError_cyl (s : State) (e : Err) : (takeError s e).cyl = s.cyl := rfl
@[simp] theorem takeError_edop (s : State) (e : Err) : (takeError s e).edop = s.edop := rfl
@[simp] theorem takeError_sb (s : State) (e : Err) : (takeError s e).sb = s.sb := rfl
@[simp] theorem takeError_erasable (s : State) (e : Err) : (takeError s e).erasable = s.erasable := rfl
@[simp] theorem takeError_fixed (s : State) (e : Err) : (takeError s e).fixed = s.fixed := rfl
@[simp] theorem takeError_pending (s : State) (e : Err) : (takeError s e).pending = s.pending := rfl
@[simp] theorem takeError_port (s : State) (e : Err) : (takeError s e).port = s.port := rfl
@[simp] theorem takeError_dout (s : State) (e : Err) : (takeError s e).dout = 0#16 := rfl
@[simp] theorem takeError_refOut (s : State) (e : Err) : (takeError s e).refOut = 0#20 := rfl
@[simp] theorem takeError_err (s : State) (e : Err) : (takeError s e).err = errCode e := rfl

/-! ### `present`: presenting a command (R86) writes the input signals and the caller's list -/

@[simp] theorem present_cfg (s : State) (c : Command) (rest : List Command) : (present s c rest).cfg = s.cfg := rfl
@[simp] theorem present_a (s : State) (c : Command) (rest : List Command) : (present s c rest).a = s.a := rfl
@[simp] theorem present_q (s : State) (c : Command) (rest : List Command) : (present s c rest).q = s.q := rfl
@[simp] theorem present_l (s : State) (c : Command) (rest : List Command) : (present s c rest).l = s.l := rfl
@[simp] theorem present_ebank (s : State) (c : Command) (rest : List Command) : (present s c rest).ebank = s.ebank := rfl
@[simp] theorem present_fbank (s : State) (c : Command) (rest : List Command) : (present s c rest).fbank = s.fbank := rfl
@[simp] theorem present_z (s : State) (c : Command) (rest : List Command) : (present s c rest).z = s.z := rfl
@[simp] theorem present_arupt (s : State) (c : Command) (rest : List Command) : (present s c rest).arupt = s.arupt := rfl
@[simp] theorem present_lrupt (s : State) (c : Command) (rest : List Command) : (present s c rest).lrupt = s.lrupt := rfl
@[simp] theorem present_qrupt (s : State) (c : Command) (rest : List Command) : (present s c rest).qrupt = s.qrupt := rfl
@[simp] theorem present_samptime1 (s : State) (c : Command) (rest : List Command) : (present s c rest).samptime1 = s.samptime1 := rfl
@[simp] theorem present_samptime2 (s : State) (c : Command) (rest : List Command) : (present s c rest).samptime2 = s.samptime2 := rfl
@[simp] theorem present_zrupt (s : State) (c : Command) (rest : List Command) : (present s c rest).zrupt = s.zrupt := rfl
@[simp] theorem present_bbrupt (s : State) (c : Command) (rest : List Command) : (present s c rest).bbrupt = s.bbrupt := rfl
@[simp] theorem present_brupt (s : State) (c : Command) (rest : List Command) : (present s c rest).brupt = s.brupt := rfl
@[simp] theorem present_cyr (s : State) (c : Command) (rest : List Command) : (present s c rest).cyr = s.cyr := rfl
@[simp] theorem present_sr (s : State) (c : Command) (rest : List Command) : (present s c rest).sr = s.sr := rfl
@[simp] theorem present_cyl (s : State) (c : Command) (rest : List Command) : (present s c rest).cyl = s.cyl := rfl
@[simp] theorem present_edop (s : State) (c : Command) (rest : List Command) : (present s c rest).edop = s.edop := rfl
@[simp] theorem present_sb (s : State) (c : Command) (rest : List Command) : (present s c rest).sb = s.sb := rfl
@[simp] theorem present_erasable (s : State) (c : Command) (rest : List Command) : (present s c rest).erasable = s.erasable := rfl
@[simp] theorem present_fixed (s : State) (c : Command) (rest : List Command) : (present s c rest).fixed = s.fixed := rfl
@[simp] theorem present_pending (s : State) (c : Command) (rest : List Command) : (present s c rest).pending = rest := rfl
@[simp] theorem present_port (s : State) (c : Command) (rest : List Command) : (present s c rest).port = c := rfl
@[simp] theorem present_dout (s : State) (c : Command) (rest : List Command) : (present s c rest).dout = s.dout := rfl
@[simp] theorem present_refOut (s : State) (c : Command) (rest : List Command) : (present s c rest).refOut = s.refOut := rfl
@[simp] theorem present_err (s : State) (c : Command) (rest : List Command) : (present s c rest).err = s.err := rfl

/-! ### `withNextCommand`: naming the next command writes the caller's list alone -/

@[simp] theorem withNextCommand_cfg (s : State) (c : Command) : (withNextCommand s c).cfg = s.cfg := rfl
@[simp] theorem withNextCommand_a (s : State) (c : Command) : (withNextCommand s c).a = s.a := rfl
@[simp] theorem withNextCommand_q (s : State) (c : Command) : (withNextCommand s c).q = s.q := rfl
@[simp] theorem withNextCommand_l (s : State) (c : Command) : (withNextCommand s c).l = s.l := rfl
@[simp] theorem withNextCommand_ebank (s : State) (c : Command) : (withNextCommand s c).ebank = s.ebank := rfl
@[simp] theorem withNextCommand_fbank (s : State) (c : Command) : (withNextCommand s c).fbank = s.fbank := rfl
@[simp] theorem withNextCommand_z (s : State) (c : Command) : (withNextCommand s c).z = s.z := rfl
@[simp] theorem withNextCommand_arupt (s : State) (c : Command) : (withNextCommand s c).arupt = s.arupt := rfl
@[simp] theorem withNextCommand_lrupt (s : State) (c : Command) : (withNextCommand s c).lrupt = s.lrupt := rfl
@[simp] theorem withNextCommand_qrupt (s : State) (c : Command) : (withNextCommand s c).qrupt = s.qrupt := rfl
@[simp] theorem withNextCommand_samptime1 (s : State) (c : Command) : (withNextCommand s c).samptime1 = s.samptime1 := rfl
@[simp] theorem withNextCommand_samptime2 (s : State) (c : Command) : (withNextCommand s c).samptime2 = s.samptime2 := rfl
@[simp] theorem withNextCommand_zrupt (s : State) (c : Command) : (withNextCommand s c).zrupt = s.zrupt := rfl
@[simp] theorem withNextCommand_bbrupt (s : State) (c : Command) : (withNextCommand s c).bbrupt = s.bbrupt := rfl
@[simp] theorem withNextCommand_brupt (s : State) (c : Command) : (withNextCommand s c).brupt = s.brupt := rfl
@[simp] theorem withNextCommand_cyr (s : State) (c : Command) : (withNextCommand s c).cyr = s.cyr := rfl
@[simp] theorem withNextCommand_sr (s : State) (c : Command) : (withNextCommand s c).sr = s.sr := rfl
@[simp] theorem withNextCommand_cyl (s : State) (c : Command) : (withNextCommand s c).cyl = s.cyl := rfl
@[simp] theorem withNextCommand_edop (s : State) (c : Command) : (withNextCommand s c).edop = s.edop := rfl
@[simp] theorem withNextCommand_sb (s : State) (c : Command) : (withNextCommand s c).sb = s.sb := rfl
@[simp] theorem withNextCommand_erasable (s : State) (c : Command) : (withNextCommand s c).erasable = s.erasable := rfl
@[simp] theorem withNextCommand_fixed (s : State) (c : Command) : (withNextCommand s c).fixed = s.fixed := rfl
@[simp] theorem withNextCommand_pending (s : State) (c : Command) : (withNextCommand s c).pending = c :: s.pending := rfl
@[simp] theorem withNextCommand_port (s : State) (c : Command) : (withNextCommand s c).port = s.port := rfl
@[simp] theorem withNextCommand_dout (s : State) (c : Command) : (withNextCommand s c).dout = s.dout := rfl
@[simp] theorem withNextCommand_refOut (s : State) (c : Command) : (withNextCommand s c).refOut = s.refOut := rfl
@[simp] theorem withNextCommand_err (s : State) (c : Command) : (withNextCommand s c).err = s.err := rfl

/-! ### `withStore`: the contents of one store and nothing else (R40) -/

@[simp] theorem withStore_cfg (s : State) (t : Store) (m : Memory) : (withStore s t m).cfg = s.cfg := by
  cases t <;> rfl
@[simp] theorem withStore_a (s : State) (t : Store) (m : Memory) : (withStore s t m).a = s.a := by
  cases t <;> rfl
@[simp] theorem withStore_q (s : State) (t : Store) (m : Memory) : (withStore s t m).q = s.q := by
  cases t <;> rfl
@[simp] theorem withStore_l (s : State) (t : Store) (m : Memory) : (withStore s t m).l = s.l := by
  cases t <;> rfl
@[simp] theorem withStore_ebank (s : State) (t : Store) (m : Memory) : (withStore s t m).ebank = s.ebank := by
  cases t <;> rfl
@[simp] theorem withStore_fbank (s : State) (t : Store) (m : Memory) : (withStore s t m).fbank = s.fbank := by
  cases t <;> rfl
@[simp] theorem withStore_z (s : State) (t : Store) (m : Memory) : (withStore s t m).z = s.z := by
  cases t <;> rfl
@[simp] theorem withStore_arupt (s : State) (t : Store) (m : Memory) : (withStore s t m).arupt = s.arupt := by
  cases t <;> rfl
@[simp] theorem withStore_lrupt (s : State) (t : Store) (m : Memory) : (withStore s t m).lrupt = s.lrupt := by
  cases t <;> rfl
@[simp] theorem withStore_qrupt (s : State) (t : Store) (m : Memory) : (withStore s t m).qrupt = s.qrupt := by
  cases t <;> rfl
@[simp] theorem withStore_samptime1 (s : State) (t : Store) (m : Memory) : (withStore s t m).samptime1 = s.samptime1 := by
  cases t <;> rfl
@[simp] theorem withStore_samptime2 (s : State) (t : Store) (m : Memory) : (withStore s t m).samptime2 = s.samptime2 := by
  cases t <;> rfl
@[simp] theorem withStore_zrupt (s : State) (t : Store) (m : Memory) : (withStore s t m).zrupt = s.zrupt := by
  cases t <;> rfl
@[simp] theorem withStore_bbrupt (s : State) (t : Store) (m : Memory) : (withStore s t m).bbrupt = s.bbrupt := by
  cases t <;> rfl
@[simp] theorem withStore_brupt (s : State) (t : Store) (m : Memory) : (withStore s t m).brupt = s.brupt := by
  cases t <;> rfl
@[simp] theorem withStore_cyr (s : State) (t : Store) (m : Memory) : (withStore s t m).cyr = s.cyr := by
  cases t <;> rfl
@[simp] theorem withStore_sr (s : State) (t : Store) (m : Memory) : (withStore s t m).sr = s.sr := by
  cases t <;> rfl
@[simp] theorem withStore_cyl (s : State) (t : Store) (m : Memory) : (withStore s t m).cyl = s.cyl := by
  cases t <;> rfl
@[simp] theorem withStore_edop (s : State) (t : Store) (m : Memory) : (withStore s t m).edop = s.edop := by
  cases t <;> rfl
@[simp] theorem withStore_sb (s : State) (t : Store) (m : Memory) : (withStore s t m).sb = s.sb := by
  cases t <;> rfl
@[simp] theorem withStore_pending (s : State) (t : Store) (m : Memory) : (withStore s t m).pending = s.pending := by
  cases t <;> rfl
@[simp] theorem withStore_port (s : State) (t : Store) (m : Memory) : (withStore s t m).port = s.port := by
  cases t <;> rfl
@[simp] theorem withStore_dout (s : State) (t : Store) (m : Memory) : (withStore s t m).dout = s.dout := by
  cases t <;> rfl
@[simp] theorem withStore_refOut (s : State) (t : Store) (m : Memory) : (withStore s t m).refOut = s.refOut := by
  cases t <;> rfl
@[simp] theorem withStore_err (s : State) (t : Store) (m : Memory) : (withStore s t m).err = s.err := by
  cases t <;> rfl
@[simp] theorem withStore_erasable_erasable (s : State) (m : Memory) : (withStore s .erasable m).erasable = m := rfl
@[simp] theorem withStore_erasable_fixed (s : State) (m : Memory) : (withStore s .erasable m).fixed = s.fixed := rfl
@[simp] theorem withStore_fixed_fixed (s : State) (m : Memory) : (withStore s .fixed m).fixed = m := rfl
@[simp] theorem withStore_fixed_erasable (s : State) (m : Memory) : (withStore s .fixed m).erasable = s.erasable := rfl
@[simp] theorem storeOf_withStore (s : State) (t : Store) (m : Memory) : storeOf (withStore s t m) t = m := by
  cases t <;> rfl

end Sys2Proof.Machine
end

