-- ==== Sys2Proof/Laws/Alu.lean ====
section
/-!
SUPPORT. Laws of the pure functions (R100 to R107): what each check answers, and each transform as a natural number.
-/

namespace Sys2Proof.Machine

/-! ### The width check -/

/-- The mask test of R100 is the comparison with `2^n`. -/
theorem land_mask_eq_iff (v n : Nat) : v &&& (2 ^ n - 1) = v ↔ v < 2 ^ n := by
  rw [Nat.and_two_pow_sub_one_eq_mod]
  exact Nat.mod_eq_iff_lt (Nat.two_pow_pos n).ne'

/-- Everything `assertWidth` can do. -/
theorem assertWidth_eq (v n : Nat) :
    assertWidth v n = if v < 2 ^ n then .ok () else .error (.valueTooWide v n) := by
  simp only [assertWidth, land_mask_eq_iff]

/-- Everything `asWord` can do. -/
theorem asWord_eq (n v : Nat) :
    asWord n v = if v < 2 ^ n then .ok (BitVec.ofNat n v) else .error (.valueTooWide v n) := by
  unfold asWord
  rw [assertWidth_eq]
  split <;> rfl

theorem asWord_of_lt {n v : Nat} (h : v < 2 ^ n) : asWord n v = .ok (BitVec.ofNat n v) := by
  rw [asWord_eq, if_pos h]

theorem asWord_of_le {n v : Nat} (h : 2 ^ n ≤ v) : asWord n v = .error (.valueTooWide v n) := by
  rw [asWord_eq, if_neg (Nat.not_lt.mpr h)]

/-- A value that is a word already passes its own check. -/
@[simp] theorem asWord_toNat {n : Nat} (w : BitVec n) : asWord n w.toNat = .ok w := by
  rw [asWord_of_lt w.isLt, BitVec.ofNat_toNat, BitVec.setWidth_eq]

theorem asWord_ok_iff {n v : Nat} {w : BitVec n} : asWord n v = .ok w ↔ v = w.toNat := by
  constructor
  · intro h
    rw [asWord_eq] at h
    split at h
    · rename_i hv
      cases h
      rw [BitVec.toNat_ofNat, Nat.mod_eq_of_lt hv]
    · cases h
  · rintro rfl
    exact asWord_toNat w

/-! ### The adder -/

/-- The sum of R107 as a natural number: no second carry arises, so nothing is lost. -/
theorem eacAdd_toNat {n : Nat} (a b : BitVec n) :
    (eacAdd a b).toNat =
      if 2 ^ n ≤ a.toNat + b.toNat then a.toNat + b.toNat - 2 ^ n + 1 else a.toNat + b.toNat := by
  have ha := a.isLt
  have hb := b.isLt
  simp only [eacAdd]
  split
  · rw [BitVec.toNat_ofNat, Nat.mod_eq_of_lt (by omega)]
  · rw [BitVec.toNat_ofNat, Nat.mod_eq_of_lt (by omega)]

theorem notWord_toNat {n : Nat} (v : BitVec n) : (notWord v).toNat = 2 ^ n - 1 - v.toNat := by
  simp [notWord, BitVec.toNat_not]

theorem plusOne_toNat {n : Nat} (h : 0 < n) : (plusOne n).toNat = 1 := by
  simp only [plusOne, BitVec.toNat_ofNat]
  exact Nat.mod_eq_of_lt (Nat.one_lt_two_pow h.ne')

theorem minusOne_toNat {n : Nat} (h : 0 < n) : (minusOne n).toNat = 2 ^ n - 2 := by
  rw [minusOne, notWord_toNat, plusOne_toNat h]
  omega

/-- The authoritative sign is the top bit: the word is at least half its range. -/
theorem authoritativeSign_iff {n : Nat} (v : BitVec n) : authoritativeSign v = true ↔ 2 ^ n ≤ 2 * v.toNat := by
  unfold authoritativeSign
  rw [BitVec.msb_eq_decide]
  cases n with
  | zero => simp [BitVec.eq_nil v]
  | succ n =>
    simp only [decide_eq_true_eq, Nat.add_sub_cancel]
    rw [pow_succ]
    omega

/-! ### Sign extension -/

/-- `signExtend` as a natural number (R102): `0o100000` is added when bit 15 is set. -/
theorem signExtend_toNat (w : Word) :
    (signExtend w).toNat = if w.toNat < 16384 then w.toNat else w.toNat + 32768 := by
  have key : signExtend w = w.signExtend 16 := by
    ext i hi
    simp only [signExtend, BitVec.getElem_signExtend]
    interval_cases i <;> simp [BitVec.msb_eq_getLsbD_last]
  have hw := w.isLt
  rw [key, BitVec.toNat_signExtend]
  simp only [BitVec.msb_eq_decide, BitVec.toNat_setWidth]
  by_cases h : w.toNat < 16384
  · simp only [h, if_true, show ¬ (2 ^ (15 - 1) ≤ w.toNat) by omega]
    simp
    omega
  · simp only [h, if_false, show (2 ^ (15 - 1) ≤ w.toNat) by omega]
    simp
    omega

end Sys2Proof.Machine
end

