-- ==== Sys2Proof/Laws/Decode.lean ====
section
/-!
SUPPORT. Laws of the encoding (R81 to R88): the fields of an encoded word, and each packed form unpacks to itself.
-/

namespace Sys2Proof

/-! ### Fields of the two formats -/

theorem wordF_op (op : BitVec 4) (k : Nat) : (wordF op k).extractLsb' 12 4 = op := by
  show BitVec.extractLsb' 12 4 (0#8 ++ (op ++ BitVec.ofNat 12 k)) = op
  ext i hi
  simp only [BitVec.getElem_extractLsb', BitVec.getLsbD_append]
  interval_cases i <;> simp

theorem wordF_k (op : BitVec 4) (k : Nat) : (wordF op k).extractLsb' 0 12 = BitVec.ofNat 12 k := by
  show BitVec.extractLsb' 0 12 (0#8 ++ (op ++ BitVec.ofNat 12 k)) = BitVec.ofNat 12 k
  ext i hi
  simp only [BitVec.getElem_extractLsb', BitVec.getLsbD_append]
  interval_cases i <;> simp

theorem wordR_op (op : BitVec 4) (ref : Ref) : (wordR op ref).extractLsb' 20 4 = op := by
  show BitVec.extractLsb' 20 4 (op ++ pack ref) = op
  ext i hi
  simp only [BitVec.getElem_extractLsb', BitVec.getLsbD_append]
  interval_cases i <;> simp

theorem wordR_ref (op : BitVec 4) (ref : Ref) : (wordR op ref).extractLsb' 0 20 = pack ref := by
  show BitVec.extractLsb' 0 20 (op ++ pack ref) = pack ref
  ext i hi
  simp only [BitVec.getElem_extractLsb', BitVec.getLsbD_append]
  interval_cases i <;> simp

/-! ### Fields of a packed reference -/

theorem pack_direct_tag (a : Nat) : (pack (.direct a)).extractLsb' 18 2 = 0b00#2 := by
  show BitVec.extractLsb' 18 2 (0b00#2 ++ BitVec.ofNat 18 a) = _
  ext i hi
  simp only [BitVec.getElem_extractLsb', BitVec.getLsbD_append]
  interval_cases i <;> simp

theorem pack_direct_address (a : Nat) : (pack (.direct a)).extractLsb' 0 18 = BitVec.ofNat 18 a := by
  show BitVec.extractLsb' 0 18 (0b00#2 ++ BitVec.ofNat 18 a) = _
  ext i hi
  simp only [BitVec.getElem_extractLsb', BitVec.getLsbD_append]
  interval_cases i <;> simp

theorem pack_banked_tag (t : Store) (b o : Nat) : (pack (.banked t b o)).extractLsb' 18 2 = 0b01#2 := by
  show BitVec.extractLsb' 18 2 (0b01#2 ++ (storeBit t ++ (BitVec.ofNat 7 b ++ BitVec.ofNat 10 o))) = _
  ext i hi
  simp only [BitVec.getElem_extractLsb', BitVec.getLsbD_append]
  interval_cases i <;> simp

theorem pack_banked_store (t : Store) (b o : Nat) : (pack (.banked t b o)).extractLsb' 17 1 = storeBit t := by
  show BitVec.extractLsb' 17 1 (0b01#2 ++ (storeBit t ++ (BitVec.ofNat 7 b ++ BitVec.ofNat 10 o))) = _
  ext i hi
  simp only [BitVec.getElem_extractLsb', BitVec.getLsbD_append]
  interval_cases i
  simp

theorem pack_banked_bank (t : Store) (b o : Nat) : (pack (.banked t b o)).extractLsb' 10 7 = BitVec.ofNat 7 b := by
  show BitVec.extractLsb' 10 7 (0b01#2 ++ (storeBit t ++ (BitVec.ofNat 7 b ++ BitVec.ofNat 10 o))) = _
  ext i hi
  simp only [BitVec.getElem_extractLsb', BitVec.getLsbD_append]
  interval_cases i <;> simp

theorem pack_banked_offset (t : Store) (b o : Nat) :
    (pack (.banked t b o)).extractLsb' 0 10 = BitVec.ofNat 10 o := by
  show BitVec.extractLsb' 0 10 (0b01#2 ++ (storeBit t ++ (BitVec.ofNat 7 b ++ BitVec.ofNat 10 o))) = _
  ext i hi
  simp only [BitVec.getElem_extractLsb', BitVec.getLsbD_append]
  interval_cases i <;> simp

@[simp] theorem storeOfBit_storeBit (t : Store) : storeOfBit (storeBit t) = t := by
  cases t <;> rfl

@[simp] theorem storeBit_storeOfBit (t : BitVec 1) : storeBit (storeOfBit t) = t := by
  revert t
  decide

end Sys2Proof
end

