-- ==== Sys2Proof/Laws/Memory.lean ====
section
/-!
SUPPORT. Laws of the stores (R38 to R40): a read after a write, and every store operation keeps the canonical form.
-/

namespace Sys2Proof.Machine

/-! ### Read after write -/

theorem readCell_eraseCell_self (m : Memory) (i : Nat) : readCell (eraseCell m i) i = unlistedWord := by
  induction m with
  | nil => rfl
  | cons c t ih =>
    by_cases h : c.1 = i
    · simpa [eraseCell, h] using ih
    · have : eraseCell (c :: t) i = c :: eraseCell t i := by simp [eraseCell, h]
      rw [this, readCell, if_neg h, ih]

theorem readCell_eraseCell_of_ne (m : Memory) {i j : Nat} (h : j ≠ i) :
    readCell (eraseCell m i) j = readCell m j := by
  induction m with
  | nil => rfl
  | cons c t ih =>
    by_cases hc : c.1 = i
    · have : eraseCell (c :: t) i = eraseCell t i := by simp [eraseCell, hc]
      rw [this, ih, readCell, if_neg (by omega)]
    · have : eraseCell (c :: t) i = c :: eraseCell t i := by simp [eraseCell, hc]
      rw [this, readCell, readCell, ih]

theorem readCell_insertCell_of_ne (m : Memory) {i j : Nat} (v : Word) (h : j ≠ i) :
    readCell (insertCell m i v) j = readCell m j := by
  induction m with
  | nil => simp [insertCell, readCell, Ne.symm h]
  | cons c t ih =>
    unfold insertCell
    split
    · rw [readCell, if_neg (Ne.symm h)]
    · rw [readCell, readCell, ih]

theorem readCell_insertCell_self (m : Memory) (i : Nat) (v : Word) (hm : ∀ c ∈ m, c.1 ≠ i) :
    readCell (insertCell m i v) i = v := by
  induction m with
  | nil => simp [insertCell, readCell]
  | cons c t ih =>
    unfold insertCell
    split
    · rw [readCell, if_pos rfl]
    · rw [readCell, if_neg (hm c (by simp)), ih fun d hd => hm d (by simp [hd])]

theorem ne_of_mem_eraseCell {m : Memory} {i : Nat} {c : Nat × Word} (h : c ∈ eraseCell m i) : c.1 ≠ i := by
  simpa using (List.mem_filter.mp h).2

/-- A read after a write: the written cell reads the word, every other cell reads as before. -/
theorem readCell_writeCell (m : Memory) (i j : Nat) (v : Word) :
    readCell (writeCell m i v) j = if j = i then v else readCell m j := by
  unfold writeCell
  by_cases h : j = i
  · subst h
    split
    · rename_i hv
      rw [readCell_eraseCell_self, if_pos rfl, hv]
    · rw [readCell_insertCell_self _ _ _ fun c hc => ne_of_mem_eraseCell hc, if_pos rfl]
  · rw [if_neg h]
    split
    · exact readCell_eraseCell_of_ne m h
    · rw [readCell_insertCell_of_ne _ _ h, readCell_eraseCell_of_ne m h]

/-! ### The canonical form -/

theorem Memory.wf_iff (m : Memory) :
    Memory.wf m = true ↔ m.Pairwise (fun c d => c.1 < d.1) ∧ ∀ c ∈ m, c.2 ≠ unlistedWord := by
  simp [Memory.wf]

theorem Memory.within_iff (m : Memory) (n : Nat) : Memory.within m n = true ↔ ∀ c ∈ m, c.1 < n := by
  simp [Memory.within]

theorem mem_insertCell {m : Memory} {i : Nat} {v : Word} {c : Nat × Word} :
    c ∈ insertCell m i v ↔ c = (i, v) ∨ c ∈ m := by
  induction m with
  | nil => simp [insertCell]
  | cons d t ih =>
    unfold insertCell
    split
    · simp
    · simp only [List.mem_cons, ih]
      tauto

theorem wf_eraseCell {m : Memory} (h : Memory.wf m = true) (i : Nat) : Memory.wf (eraseCell m i) = true := by
  rw [Memory.wf_iff] at *
  exact ⟨h.1.filter _, fun c hc => h.2 c (List.mem_filter.mp hc).1⟩

theorem pairwise_insertCell {m : Memory} {i : Nat} {v : Word} (hm : m.Pairwise fun c d => c.1 < d.1)
    (hi : ∀ c ∈ m, c.1 ≠ i) : (insertCell m i v).Pairwise fun c d => c.1 < d.1 := by
  induction m with
  | nil => simp [insertCell]
  | cons c t ih =>
    rw [List.pairwise_cons] at hm
    have hc := hi c (by simp)
    unfold insertCell
    split
    · rename_i hlt
      rw [List.pairwise_cons, List.pairwise_cons]
      refine ⟨fun d hd => ?_, hm⟩
      rcases List.mem_cons.mp hd with rfl | hd
      · exact hlt
      · exact lt_trans hlt (hm.1 d hd)
    · rename_i hge
      rw [List.pairwise_cons]
      refine ⟨fun d hd => ?_, ih hm.2 fun d hd => hi d (by simp [hd])⟩
      rcases mem_insertCell.mp hd with rfl | hd
      · show c.1 < i
        have : ¬ i < c.1 := hge
        omega
      · exact hm.1 d hd

/-- A write keeps the canonical form, whatever the word. -/
theorem wf_writeCell {m : Memory} (h : Memory.wf m = true) (i : Nat) (v : Word) :
    Memory.wf (writeCell m i v) = true := by
  unfold writeCell
  split
  · exact wf_eraseCell h i
  · rename_i hv
    have he := (Memory.wf_iff _).mp (wf_eraseCell h i)
    rw [Memory.wf_iff]
    refine ⟨pairwise_insertCell he.1 fun c hc => ne_of_mem_eraseCell hc, fun c hc => ?_⟩
    rcases mem_insertCell.mp hc with rfl | hc
    · exact hv
    · exact he.2 c hc

/-- A write to a cell the store has lists no cell it does not have. -/
theorem within_writeCell {m : Memory} {n : Nat} (h : Memory.within m n = true) {i : Nat} (hi : i < n) (v : Word) :
    Memory.within (writeCell m i v) n = true := by
  rw [Memory.within_iff] at *
  intro c hc
  unfold writeCell at hc
  split at hc
  · exact h c (List.mem_filter.mp hc).1
  · rcases mem_insertCell.mp hc with rfl | hc
    · exact hi
    · exact h c (List.mem_filter.mp hc).1

/-- The empty store, which is what reset leaves, is in the canonical form. -/
theorem wf_nil : Memory.wf [] = true := rfl

theorem within_nil (n : Nat) : Memory.within [] n = true := rfl

/-! ### Cells of a state -/

theorem cellIndex_lt {t : Store} {b o : Nat} (hb : b < numBanks t) (ho : o < bankSize t) :
    cellIndex t b o < numCells t := by
  cases t <;> simp only [numBanks, bankSize, cellIndex, numCells] at * <;> omega

/-- Banks are disjoint (R40): a cell number names one bank and one offset. -/
theorem cellIndex_inj {t : Store} {b o b' o' : Nat} (ho : o < bankSize t) (ho' : o' < bankSize t)
    (h : cellIndex t b o = cellIndex t b' o') : b = b' ∧ o = o' := by
  cases t <;> simp only [bankSize, cellIndex] at * <;> omega

/-- Everything `checkCell` can do. -/
theorem checkCell_ok_iff {t : Store} {b o : Nat} : checkCell t b o = .ok () ↔ b < numBanks t ∧ o < bankSize t := by
  unfold checkCell
  split
  · simp
    omega
  · split
    · simp
      omega
    · simp
      omega

end Sys2Proof.Machine
end

