-- ==== Sys2Proof/Laws/Ops.lean ====
section
/-!
SUPPORT. Laws of the shared operations over the state: for each one lemma that says everything it can do, in the terms of
Sys2Proof/Safety.lean.
-/

namespace Sys2Proof.Machine

/-! ### Sequencing and conclusions -/

@[simp] theorem bind_ok {α β : Type} (a : α) (f : α → Except Err β) : (Except.ok a >>= f) = f a := rfl

@[simp] theorem bind_error {α β : Type} (e : Err) (f : α → Except Err β) :
    ((Except.error e : Except Err α) >>= f) = .error e := rfl

/-- A sequence that completes went through a completed first part. -/
theorem bind_eq_ok {α β : Type} {x : Except Err α} {f : α → Except Err β} {b : β} (h : (x >>= f) = .ok b) :
    ∃ a, x = .ok a ∧ f a = .ok b := by
  cases x with
  | ok a => exact ⟨a, rfl, h⟩
  | error e => cases h

@[simp] theorem conclude_ok (s s' : State) : conclude s (.ok s') = .next s' := rfl

@[simp] theorem conclude_pure (s s' : State) : conclude s (pure s') = .next s' := rfl

@[simp] theorem conclude_error (s : State) (e : Err) : conclude s (.error e) = .next (takeError s e) := rfl

/-- Everything `conclude` can do: a completed operation's state, or the error taken. -/
theorem conclude_next {s t : State} {r : Except Err State} (h : conclude s r = .next t) :
    r = .ok t ∨ ∃ e, r = .error e ∧ t = takeError s e := by
  cases r with
  | ok a => exact .inl (by cases h; rfl)
  | error e => exact .inr ⟨e, rfl, by cases h; rfl⟩

theorem takeError_eq_failed (s : State) (e : Err) : takeError s e = failed s (errCode e) := rfl

theorem answer_zero (s : State) : answer s 0#16 0#20 = completed s := rfl

theorem done_eq_completed (s : State) : done s = completed s := rfl

/-! ### Shape checks -/

/-- The EBANK mask test (R18) in arithmetic: a bank number below 8 times 256. -/
theorem land_ebankMask_iff (v : Nat) : v &&& ebankMask = v ↔ v % 256 = 0 ∧ v < 8 * 256 := by
  have hd : (v &&& ebankMask) / 2 ^ 8 = v / 2 ^ 8 % 8 := by
    rw [Nat.and_div_two_pow]
    exact Nat.and_two_pow_sub_one_eq_mod _ 3
  have hm : (v &&& ebankMask) % 2 ^ 8 = 0 := by
    rw [Nat.and_mod_two_pow]
    exact Nat.and_zero _
  norm_num at hd hm
  omega

/-- The BBANK mask test (R21) in arithmetic, for a 15-bit value: bits 10 to 4 are 0. -/
theorem land_bbankMask_iff {v : Nat} (hv : v < 2 ^ 15) : v &&& bbankMask = v ↔ v / 8 % 128 = 0 := by
  have hd : (v &&& bbankMask) / 2 ^ 10 = v / 2 ^ 10 % 32 := by
    rw [Nat.and_div_two_pow]
    exact Nat.and_two_pow_sub_one_eq_mod _ 5
  have hm : (v &&& bbankMask) % 2 ^ 3 = v % 8 := by
    rw [Nat.and_mod_two_pow]
    exact (Nat.and_two_pow_sub_one_eq_mod _ 3).trans (Nat.mod_mod _ _)
  have hmid : (v &&& bbankMask) / 2 ^ 3 % 2 ^ 7 = 0 := by
    rw [Nat.and_div_two_pow, Nat.and_mod_two_pow]
    exact Nat.and_zero _
  norm_num at hd hm hmid
  omega

/-! ### Register cells -/

/-- Everything `usableReg` can do. -/
theorem usableReg_eq (cfg : Config) (a : Nat) :
    usableReg cfg a =
      match regAtAddress cfg a with
      | some r => .ok r
      | none => .error (.addressOutOfBounds a) := by
  unfold usableReg regAtAddress regAt isRegAddr validReg
  by_cases h : a < cfg.regLimit
  · cases hl : cfg.regMap.lookup a with
    | none => simp [h]
    | some r => by_cases hv : r ∈ cfg.validRegs <;> simp [h, hv, Option.filter]
  · cases hl : cfg.regMap.lookup a <;> simp [h]

theorem usableReg_some {cfg : Config} {a : Nat} {r : Reg} (h : regAtAddress cfg a = some r) :
    usableReg cfg a = .ok r := by
  rw [usableReg_eq, h]

theorem usableReg_none {cfg : Config} {a : Nat} (h : regAtAddress cfg a = none) :
    usableReg cfg a = .error (.addressOutOfBounds a) := by
  rw [usableReg_eq, h]

/-- BBANK as a number (R34): the two fields of R37 do not overlap. -/
theorem bbank_toNat (s : State) : (bbank s).toNat = s.fbank.toNat * 1024 + s.ebank.toNat / 256 := by
  have he := s.ebank.isLt
  have hf := s.fbank.isLt
  have hlt : s.ebank.toNat / 256 < 2 ^ 10 := by omega
  have := Nat.shiftLeft_add_eq_or_of_lt hlt s.fbank.toNat
  simp only [bbank, BitVec.toNat_or, BitVec.toNat_shiftLeft, BitVec.toNat_setWidth, BitVec.toNat_ushiftRight]
  rw [Nat.mod_eq_of_lt (show s.fbank.toNat < 2 ^ 15 by omega), Nat.shiftRight_eq_div_pow, Nat.shiftLeft_eq] at *
  rw [Nat.mod_eq_of_lt (show s.fbank.toNat * 2 ^ 10 < 2 ^ 15 by omega)]
  norm_num at *
  omega

/-- The raw read (R14) is the cell's value. -/
theorem readReg_toNat (s : State) (r : Reg) : (readReg s r).toNat = cellValue s r := by
  cases r <;> simp only [readReg, cellValue, BitVec.toNat_setWidth, bbank_toNat]
  case ebank => have := s.ebank.isLt; omega
  case fbank => have := s.fbank.isLt; omega
  case z => have := s.z.isLt; omega
  case l => have := s.l.isLt; omega
  case bbank => have := s.fbank.isLt; have := s.ebank.isLt; omega
  case edop => have := s.edop.isLt; omega
  case arupt => have := s.arupt.isLt; omega
  case lrupt => have := s.lrupt.isLt; omega
  case qrupt => have := s.qrupt.isLt; omega
  case samptime1 => have := s.samptime1.isLt; omega
  case samptime2 => have := s.samptime2.isLt; omega
  case zrupt => have := s.zrupt.isLt; omega
  case bbrupt => have := s.bbrupt.isLt; omega
  case brupt => have := s.brupt.isLt; omega
  case cyr => have := s.cyr.isLt; omega
  case sr => have := s.sr.isLt; omega
  case cyl => have := s.cyl.isLt; omega

theorem readReg_eq (s : State) (r : Reg) : readReg s r = BitVec.ofNat 16 (cellValue s r) := by
  rw [← readReg_toNat, BitVec.ofNat_toNat, BitVec.setWidth_eq]

theorem readRegMasked_eq (s : State) (r : Reg) : readRegMasked s r = BitVec.ofNat 15 (cellValue s r) := by
  apply BitVec.eq_of_toNat_eq
  rw [readRegMasked, BitVec.toNat_setWidth, readReg_toNat, BitVec.toNat_ofNat]

/-- The rotation right as a number (R103). -/
theorem cycleRight_toNat (w : Word) : (cycleRight w).toNat = w.toNat / 2 + w.toNat % 2 * 16384 := by
  have hw := w.isLt
  have hlt : w.toNat / 2 < 2 ^ 14 := by omega
  have hor := Nat.shiftLeft_add_eq_or_of_lt hlt (w.toNat % 2)
  simp only [cycleRight, BitVec.toNat_or, BitVec.toNat_shiftLeft, BitVec.toNat_and, BitVec.toNat_ushiftRight,
    BitVec.toNat_ofNat, Nat.shiftRight_eq_div_pow, Nat.shiftLeft_eq] at *
  norm_num at *
  rw [Nat.mod_eq_of_lt (show w.toNat % 2 * 16384 < 32768 by omega), Nat.or_comm]
  omega

/-- The rotation left as a number (R104). -/
theorem cycleLeft_toNat (w : Word) : (cycleLeft w).toNat = w.toNat * 2 % 32768 + w.toNat / 16384 := by
  have hw := w.isLt
  have hlt : w.toNat / 16384 < 2 ^ 1 := by omega
  have hor := Nat.shiftLeft_add_eq_or_of_lt hlt (w.toNat % 16384)
  simp only [cycleLeft, BitVec.toNat_or, BitVec.toNat_shiftLeft, BitVec.toNat_ushiftRight,
    Nat.shiftRight_eq_div_pow, Nat.shiftLeft_eq] at *
  norm_num at *
  rw [show w.toNat * 2 % 32768 = w.toNat % 16384 * 2 by omega]
  omega

theorem shiftRight_toNat (w : Word) : (shiftRight w).toNat = w.toNat / 2 := by
  simp [shiftRight, Nat.shiftRight_eq_div_pow]

theorem edop_toNat (w : Word) : (edop w).toNat = w.toNat / 128 % 128 := by
  simp [edop, Nat.shiftRight_eq_div_pow]

theorem toNat_ofNat_of_lt {n v : Nat} (h : v < 2 ^ n) : (BitVec.ofNat n v).toNat = v := by
  rw [BitVec.toNat_ofNat, Nat.mod_eq_of_lt h]

theorem cycleRight_ofNat {v : Nat} (h : v < 2 ^ 15) :
    cycleRight (BitVec.ofNat 15 v) = BitVec.ofNat 15 (v / 2 + v % 2 * 16384) := by
  apply BitVec.eq_of_toNat_eq
  rw [cycleRight_toNat, toNat_ofNat_of_lt h, toNat_ofNat_of_lt (by omega)]

theorem cycleLeft_ofNat {v : Nat} (h : v < 2 ^ 15) :
    cycleLeft (BitVec.ofNat 15 v) = BitVec.ofNat 15 (v * 2 % 32768 + v / 16384) := by
  apply BitVec.eq_of_toNat_eq
  rw [cycleLeft_toNat, toNat_ofNat_of_lt h, toNat_ofNat_of_lt (by omega)]

theorem shiftRight_ofNat {v : Nat} (h : v < 2 ^ 15) :
    shiftRight (BitVec.ofNat 15 v) = BitVec.ofNat 15 (v / 2) := by
  apply BitVec.eq_of_toNat_eq
  rw [shiftRight_toNat, toNat_ofNat_of_lt h, toNat_ofNat_of_lt (by omega)]

theorem edop_ofNat {v : Nat} (h : v < 2 ^ 15) : edop (BitVec.ofNat 15 v) = BitVec.ofNat 7 (v / 128 % 128) := by
  apply BitVec.eq_of_toNat_eq
  rw [edop_toNat, toNat_ofNat_of_lt h, toNat_ofNat_of_lt (by omega)]

theorem assertShape_ok {v m : Nat} (h : v &&& m = v) : assertShape v m = .ok () := if_pos h

theorem assertShape_error {v m : Nat} (h : ¬ v &&& m = v) : assertShape v m = .error (.invalidShape v m) := if_neg h

/-- Writing EBANK (R18): width, then shape. -/
theorem writeEbank_eq (s : State) (v : Nat) :
    writeEbank s v =
      if 2 ^ 15 ≤ v then .error (.valueTooWide v 15)
      else if v % 256 = 0 ∧ v < 8 * 256 then .ok { s with ebank := BitVec.ofNat 15 v }
      else .error (.invalidShape v ebankMask) := by
  unfold writeEbank
  by_cases hv : 2 ^ 15 ≤ v
  · rw [asWord_of_le hv, if_pos hv, bind_error]
  · rw [asWord_of_lt (Nat.not_le.mp hv), if_neg hv, bind_ok]
    by_cases hm : v &&& ebankMask = v
    · rw [assertShape_ok hm, if_pos ((land_ebankMask_iff v).mp hm)]
      rfl
    · rw [assertShape_error hm, if_neg (mt (land_ebankMask_iff v).mpr hm)]
      rfl

/-- Writing BBANK (R21): width, shape, then both bank registers. -/
theorem writeBbank_eq (s : State) (v : Nat) :
    writeBbank s v =
      if 2 ^ 15 ≤ v then .error (.valueTooWide v 15)
      else if v / 8 % 128 = 0 then
        .ok { s with fbank := BitVec.ofNat 5 (v / 1024), ebank := BitVec.ofNat 15 (v % 8 * 256) }
      else .error (.invalidShape v bbankMask) := by
  unfold writeBbank
  rw [assertWidth_eq]
  by_cases hv : 2 ^ 15 ≤ v
  · rw [if_pos hv, if_neg (Nat.not_lt.mpr hv), bind_error]
  · have hlt := Nat.not_le.mp hv
    rw [if_neg hv, if_pos hlt, bind_ok]
    by_cases hm : v &&& bbankMask = v
    · have h8 : (v &&& 0o7) <<< 8 = v % 8 * 256 := by
        rw [Nat.shiftLeft_eq, show (0o7 : Nat) = 2 ^ 3 - 1 from rfl, Nat.and_two_pow_sub_one_eq_mod]
      have h10 : v >>> 10 = v / 1024 := Nat.shiftRight_eq_div_pow v 10
      rw [assertShape_ok hm, if_pos ((land_bbankMask_iff hlt).mp hm), bind_ok, writeFbank, h10,
        asWord_of_lt (show v / 1024 < 2 ^ 5 by omega), h8]
      show writeEbank _ _ = _
      rw [writeEbank_eq, if_neg (by omega), if_pos (by omega)]
    · rw [assertShape_error hm, if_neg (mt (land_bbankMask_iff hlt).mpr hm), bind_error]

theorem fits_ok {v n : Nat} {t u : State} (h : fits v n t = .ok u) : v < 2 ^ n ∧ u = t := by
  unfold fits at h
  split at h
  · exact ⟨‹_›, by cases h; rfl⟩
  · cases h

theorem fits_error {v n : Nat} {t : State} {e : BitVec 3} (h : fits v n t = .error e) : 2 ^ n ≤ v ∧ e = 1#3 := by
  unfold fits at h
  split at h
  · cases h
  · exact ⟨Nat.not_lt.mp ‹_›, by cases h; rfl⟩

/-- A raw write that the cell's rule lets through (R13, R15 to R33). -/
theorem writeReg_of_ok {s t : State} {v : Nat} {r : Reg} (h : writeRule s v r = .ok t) :
    writeReg s r v = .ok t := by
  cases r
  case ebank =>
    simp only [writeRule] at h
    rw [writeReg, writeEbank_eq]
    split at h
    · cases h
    · split at h
      · rw [if_neg ‹_›, if_pos ‹_›]
        cases h
        rfl
      · cases h
  case bbank =>
    simp only [writeRule] at h
    rw [writeReg, writeBbank_eq]
    split at h
    · cases h
    · split at h
      · rw [if_neg ‹_›, if_pos ‹_›]
        cases h
        rfl
      · cases h
  case l =>
    obtain ⟨hv, rfl⟩ := fits_ok h
    have hl : (BitVec.ofNat 16 v).setWidth 15 = BitVec.ofNat 15 (v % 32768) := by
      apply BitVec.eq_of_toNat_eq
      rw [BitVec.toNat_setWidth, toNat_ofNat_of_lt hv, toNat_ofNat_of_lt (by omega)]
    rw [writeReg, writeL, asWord_of_lt hv, bind_ok, hl]
    rfl
  case fbank =>
    obtain ⟨hv, rfl⟩ := fits_ok h
    rw [writeReg, writeFbank, asWord_of_lt hv]
    rfl
  case cyr =>
    obtain ⟨hv, rfl⟩ := fits_ok h
    rw [writeReg, asWord_of_lt hv, bind_ok, cycleRight_ofNat hv]
    rfl
  case sr =>
    obtain ⟨hv, rfl⟩ := fits_ok h
    rw [writeReg, asWord_of_lt hv, bind_ok, shiftRight_ofNat hv]
    rfl
  case cyl =>
    obtain ⟨hv, rfl⟩ := fits_ok h
    rw [writeReg, asWord_of_lt hv, bind_ok, cycleLeft_ofNat hv]
    rfl
  case edop =>
    obtain ⟨hv, rfl⟩ := fits_ok h
    rw [writeReg, asWord_of_lt hv, bind_ok, edop_ofNat hv]
    rfl
  all_goals
    obtain ⟨hv, rfl⟩ := fits_ok h
    rw [writeReg, asWord_of_lt hv]
    rfl

/-- A raw write that the cell's rule refuses, and the code of the refusal. -/
theorem writeReg_of_error {s : State} {v : Nat} {r : Reg} {e : BitVec 3} (h : writeRule s v r = .error e) :
    ∃ err, writeReg s r v = .error err ∧ errCode err = e := by
  cases r
  case ebank =>
    simp only [writeRule] at h
    rw [writeReg, writeEbank_eq]
    split at h
    · rw [if_pos ‹_›]
      exact ⟨_, rfl, by cases h; rfl⟩
    · split at h
      · cases h
      · rw [if_neg ‹_›, if_neg ‹_›]
        exact ⟨_, rfl, by cases h; rfl⟩
  case bbank =>
    simp only [writeRule] at h
    rw [writeReg, writeBbank_eq]
    split at h
    · rw [if_pos ‹_›]
      exact ⟨_, rfl, by cases h; rfl⟩
    · split at h
      · cases h
      · rw [if_neg ‹_›, if_neg ‹_›]
        exact ⟨_, rfl, by cases h; rfl⟩
  case l =>
    obtain ⟨hv, rfl⟩ := fits_error h
    exact ⟨.valueTooWide v 16, by rw [writeReg, writeL, asWord_of_le hv]; rfl, rfl⟩
  case fbank =>
    obtain ⟨hv, rfl⟩ := fits_error h
    exact ⟨.valueTooWide v 5, by rw [writeReg, writeFbank, asWord_of_le hv]; rfl, rfl⟩
  all_goals
    obtain ⟨hv, rfl⟩ := fits_error h
    exact ⟨.valueTooWide v _, by rw [writeReg, asWord_of_le hv]; rfl, rfl⟩

/-- Everything a raw write can do when it completes: the cell's rule, and nothing but register cells changes. -/
theorem writeReg_ok {s t : State} {v : Nat} {r : Reg} (h : writeReg s r v = .ok t) : writeRule s v r = .ok t := by
  cases hw : writeRule s v r with
  | ok u => rw [writeReg_of_ok hw] at h; cases h; rfl
  | error e =>
    obtain ⟨err, he, -⟩ := writeReg_of_error hw
    rw [he] at h
    cases h

/-- The frame of a raw write: the configuration, the flag, the stores, the caller's list and the port stay. -/
theorem writeReg_frame {s t : State} {v : Nat} {r : Reg} (h : writeReg s r v = .ok t) :
    t.cfg = s.cfg ∧ t.sb = s.sb ∧ t.erasable = s.erasable ∧ t.fixed = s.fixed ∧ t.pending = s.pending ∧
      t.port = s.port := by
  have hw := writeReg_ok h
  cases r
  case ebank =>
    simp only [writeRule] at hw
    split at hw
    · cases hw
    · split at hw
      · cases hw; exact ⟨rfl, rfl, rfl, rfl, rfl, rfl⟩
      · cases hw
  case bbank =>
    simp only [writeRule] at hw
    split at hw
    · cases hw
    · split at hw
      · cases hw; exact ⟨rfl, rfl, rfl, rfl, rfl, rfl⟩
      · cases hw
  all_goals
    obtain ⟨-, rfl⟩ := fits_ok hw
    exact ⟨rfl, rfl, rfl, rfl, rfl, rfl⟩

/-- Writing A with a word that already has 16 bits always completes (R15). -/
@[simp] theorem writeReg_a_word (s : State) (w : Acc) : writeReg s .a w.toNat = .ok { s with a := w } := by
  rw [writeReg, asWord_toNat]
  rfl

@[simp] theorem writeReg_q_word (s : State) (w : Acc) : writeReg s .q w.toNat = .ok { s with q := w } := by
  rw [writeReg, asWord_toNat]
  rfl

/-- Everything the addition path can do (R141): it always completes and changes A alone. -/
theorem addToA_eq (s : State) (y : Acc) : addToA s y = .ok { s with a := eacAdd s.a y } :=
  writeReg_a_word s _

/-! ### Address resolution -/

theorem land_0o6000_eq_zero {k : Nat} (h : k < 2 ^ 12) : k &&& 0o6000 = 0 ↔ k < 0o2000 := by
  have hd : (k &&& 0o6000) / 2 ^ 10 = k / 2 ^ 10 % 4 := by
    rw [Nat.and_div_two_pow]
    exact Nat.and_two_pow_sub_one_eq_mod _ 2
  have hm : (k &&& 0o6000) % 2 ^ 10 = 0 := by
    rw [Nat.and_mod_two_pow]
    exact Nat.and_zero _
  norm_num at hd hm
  omega

theorem land_0o1400_eq {k : Nat} (h : k < 0o2000) : k &&& 0o1400 = 0o1400 ↔ 0o1400 ≤ k := by
  have hd : (k &&& 0o1400) / 2 ^ 8 = k / 2 ^ 8 % 4 := by
    rw [Nat.and_div_two_pow]
    exact Nat.and_two_pow_sub_one_eq_mod _ 2
  have hm : (k &&& 0o1400) % 2 ^ 8 = 0 := by
    rw [Nat.and_mod_two_pow]
    exact Nat.and_zero _
  norm_num at hd hm
  omega

theorem land_0o4000_eq_zero {k : Nat} (h : k < 2 ^ 12) : k &&& 0o4000 = 0 ↔ k < 0o4000 := by
  have hd : (k &&& 0o4000) / 2 ^ 11 = k / 2 ^ 11 % 2 := by
    rw [Nat.and_div_two_pow]
    exact Nat.and_two_pow_sub_one_eq_mod _ 1
  have hm : (k &&& 0o4000) % 2 ^ 11 = 0 := by
    rw [Nat.and_mod_two_pow]
    exact Nat.and_zero _
  norm_num at hd hm
  omega

theorem land_0o377 (k : Nat) : k &&& 0o377 = k % 256 := Nat.and_two_pow_sub_one_eq_mod k 8

theorem land_0o1777 (k : Nat) : k &&& 0o1777 = k % 1024 := Nat.and_two_pow_sub_one_eq_mod k 10

/-- Fixed switched resolution (R57) by its table. -/
theorem fixedSwitched_eq (s : State) (o : Nat) : fixedSwitched s o = switchedFixedRef s o := by
  have hf := s.fbank.isLt
  unfold fixedSwitched switchedFixedRef rawFixedBank lastLiveBank superbankStart superbankStep
  cases hs : s.sb
  · simp
    omega
  · simp only [and_true, if_false, reduceCtorEq]
    split <;> split <;> split <;> first | rfl | omega | (split <;> first | rfl | omega)

/-- Everything `deduceAddress` can do with a 12-bit field: the map of R51. -/
theorem deduceAddress_of_lt (s : State) {k : Nat} (h : k < 2 ^ 12) : deduceAddress s k = .ok (fieldRef s k) := by
  unfold deduceAddress fieldRef
  rw [assertWidth_eq, if_pos h, bind_ok, land_0o377, land_0o1777, fixedSwitched_eq, erasableBank,
    Nat.shiftRight_eq_div_pow]
  simp only [land_0o6000_eq_zero h, ne_eq, land_0o4000_eq_zero h]
  by_cases h2 : k < 0o2000
  · simp only [h2, if_true, land_0o1400_eq h2]
    by_cases h1 : k < 0o1400
    · rw [if_neg (by omega), if_pos h1]
      rfl
    · rw [if_pos (by omega), if_neg h1]
      rfl
  · rw [if_neg h2, if_neg (show ¬ k < 0o1400 by omega), if_neg h2]
    by_cases h4 : k < 0o4000
    · rw [if_neg (by omega), if_pos h4]
      rfl
    · rw [if_pos h4, if_neg h4]
      rfl

/-- A field of 13 bits or more is refused (R56). -/
theorem deduceAddress_of_le (s : State) {k : Nat} (h : 2 ^ 12 ≤ k) :
    deduceAddress s k = .error (.valueTooWide k 12) := by
  unfold deduceAddress
  rw [assertWidth_eq, if_neg (Nat.not_lt.mpr h)]
  rfl

end Sys2Proof.Machine
end

