-- ==== Sys2Proof/Laws/Refs.lean ====
section
/-!
SUPPORT. Laws of the generic path and of operands: what reading and writing through a reference do, by what the reference
names (`refReg`, `refCell`, `operandOf` of Sys2Proof/Safety.lean).
-/

namespace Sys2Proof.Machine

/-! ### What a reference names -/

theorem refReg_lt {cfg : Config} {a : Nat} {r : Reg} (h : regAtAddress cfg a = some r) : a < cfg.regLimit := by
  unfold regAtAddress at h
  split at h
  · assumption
  · cases h

/-- A reference that names a register cell is a Direct register address. -/
theorem refReg_some {cfg : Config} {ref : Ref} {r : Reg} (h : refReg cfg ref = some r) :
    ∃ a, ref = .direct a ∧ a < cfg.regLimit ∧ regAtAddress cfg a = some r := by
  cases ref with
  | direct a => exact ⟨a, rfl, refReg_lt h, h⟩
  | banked t b o => cases h
  | deadBank => cases h

/-- A reference that names a storage cell names no register cell, and the cell exists. -/
theorem refCell_some {cfg : Config} {ref : Ref} {t : Store} {b o : Nat} (h : refCell cfg ref = some (t, b, o)) :
    refReg cfg ref = none ∧ b < numBanks t ∧ o < bankSize t := by
  cases ref with
  | direct a =>
    simp only [refCell] at h
    split at h
    · cases h
    · rename_i hl
      have hr : refReg cfg (.direct a) = none := by simp [refReg, regAtAddress, hl]
      split at h
      · cases h
        refine ⟨hr, ?_, ?_⟩ <;> simp only [numBanks, bankSize] <;> omega
      · split at h
        · rename_i hf
          cases h
          refine ⟨hr, ?_, ?_⟩ <;> simp only [numBanks, bankSize] <;> omega
        · cases h
  | banked t' b' o' =>
    simp only [refCell] at h
    split at h
    · cases h
      exact ⟨rfl, ‹_›⟩
    · cases h
  | deadBank => cases h

theorem readBanked_ok {s : State} {t : Store} {b o : Nat} (hb : b < numBanks t) (ho : o < bankSize t) :
    readBanked s t b o = .ok (cell s t b o) := by
  rw [readBanked, checkCell_ok_iff.mpr ⟨hb, ho⟩]
  rfl

theorem checkCell_error {t : Store} {b o : Nat} (h : ¬ (b < numBanks t ∧ o < bankSize t)) :
    ∃ e, checkCell t b o = .error e ∧ errCode e = if numBanks t ≤ b then 3#3 else 4#3 := by
  unfold checkCell
  by_cases hb : numBanks t ≤ b
  · exact ⟨.invalidBank b, by rw [if_pos hb], by rw [if_pos hb]; rfl⟩
  · exact ⟨.addressOutOfBounds o, by rw [if_neg hb, if_pos (by omega)], by rw [if_neg hb]; rfl⟩

theorem writeBanked_error {s : State} {t : Store} {b o : Nat} {v : Word} {e : Err} (h : checkCell t b o = .error e) :
    writeBanked s t b o v = .error e := by
  unfold writeBanked
  rw [h]
  rfl

/-- A Direct address below the limit goes to the register file (R58, R62, R67). -/
theorem readWord_direct_reg {s : State} {a : Nat} (h : a < s.cfg.regLimit) :
    readWord s (.direct a) = usableReg s.cfg a >>= fun r => pure (readRegMasked s r) := by
  simp [readWord, isRegAddr, h]

theorem readWord_direct_cell {s : State} {a : Nat} (h : ¬ a < s.cfg.regLimit) :
    readWord s (.direct a) = canonDirect s.cfg a >>= fun x => readBanked s x.1 x.2.1 x.2.2 := by
  simp [readWord, isRegAddr, h]

theorem writeWord_of_lt {s : State} {ref : Ref} {v : Nat} (h : v < 2 ^ 15) :
    writeWord s ref v =
      match ref with
      | .direct a =>
        if isRegAddr s.cfg a then usableReg s.cfg a >>= fun r => writeReg s r v
        else canonDirect s.cfg a >>= fun x => writeBanked s x.1 x.2.1 x.2.2 (BitVec.ofNat 15 v)
      | .banked t b o => writeBanked s t b o (BitVec.ofNat 15 v)
      | .deadBank => pure s := by
  cases ref <;> simp only [writeWord, asWord_of_lt h, bind_ok]

/-- The width check comes first, whatever the target (R62, R64). -/
theorem writeWord_of_le {s : State} {ref : Ref} {v : Nat} (h : 2 ^ 15 ≤ v) :
    writeWord s ref v = .error (.valueTooWide v 15) := by
  rw [writeWord, asWord_of_le h, bind_error]

/-- Everything the canonical form of a Direct address can be (R54, R55, R65). -/
theorem canonDirect_eq (cfg : Config) (a : Nat) :
    canonDirect cfg a =
      if a < 0o1400 then .ok (.erasable, a / 256, a % 256)
      else if 0o4000 ≤ a ∧ a < 0o10000 then
        .ok (.fixed, cfg.ffBase + (a - 0o4000) / 1024, a % 1024)
      else .error (.addressOutOfBounds a) := by
  unfold canonDirect erasableDirectEnd fixedDirectStart fixedDirectEnd
  rw [land_0o377, land_0o1777, Nat.shiftRight_eq_div_pow, Nat.shiftRight_eq_div_pow]

/-- The cell a Direct address names is the one its canonical form names. -/
theorem canonDirect_of_refCell {cfg : Config} {a : Nat} {t : Store} {b o : Nat}
    (h : refCell cfg (.direct a) = some (t, b, o)) : ¬ a < cfg.regLimit ∧ canonDirect cfg a = .ok (t, b, o) := by
  simp only [refCell] at h
  rw [canonDirect_eq]
  split at h
  · cases h
  · refine ⟨‹_›, ?_⟩
    split at h
    · rw [if_pos ‹_›]
      cases h
      rfl
    · split at h
      · rename_i hf
        rw [if_neg ‹_›, if_pos ⟨hf.1, hf.2.1⟩]
        cases h
        rfl
      · cases h

/-! ### Reading -/

/-- Reading a storage cell (R58, R60). -/
theorem readWord_of_cell {s : State} {ref : Ref} {t : Store} {b o : Nat} (h : refCell s.cfg ref = some (t, b, o)) :
    readWord s ref = .ok (cell s t b o) := by
  obtain ⟨-, hb, ho⟩ := refCell_some h
  cases ref with
  | direct a =>
    obtain ⟨hl, hc⟩ := canonDirect_of_refCell h
    rw [readWord_direct_cell hl, hc]
    exact readBanked_ok hb ho
  | banked t' b' o' =>
    simp only [refCell] at h
    split at h
    · cases h
      exact readBanked_ok hb ho
    · cases h
  | deadBank => cases h

/-- Reading a register cell (R58, R59). -/
theorem readWord_of_reg {s : State} {ref : Ref} {r : Reg} (h : refReg s.cfg ref = some r) :
    readWord s ref = .ok (BitVec.ofNat 15 (cellValue s r)) := by
  obtain ⟨a, rfl, hl, hr⟩ := refReg_some h
  rw [readWord_direct_reg hl, usableReg_some hr, bind_ok, readRegMasked_eq]
  rfl

/-- Reading a dead bank (R61). -/
@[simp] theorem readWord_deadBank (s : State) : readWord s .deadBank = .ok 0#15 := rfl

/-- A reference that names nothing is refused with its code (R58, R60, R65). -/
theorem readWord_of_none {s : State} {ref : Ref} (hr : refReg s.cfg ref = none) (hc : refCell s.cfg ref = none)
    (hd : ref ≠ .deadBank) : ∃ e, readWord s ref = .error e ∧ errCode e = refErrCode s.cfg ref := by
  cases ref with
  | direct a =>
    simp only [refReg] at hr
    simp only [refCell] at hc
    by_cases hl : a < s.cfg.regLimit
    · refine ⟨.addressOutOfBounds a, ?_, ?_⟩
      · rw [readWord_direct_reg hl, usableReg_none hr]
        rfl
      · simp only [refErrCode]
        rw [if_neg (by omega)]
        rfl
    · rw [if_neg hl] at hc
      rw [readWord_direct_cell hl, canonDirect_eq]
      simp only [refErrCode]
      split at hc
      · cases hc
      · rename_i h1
        by_cases h4 : 0o4000 ≤ a ∧ a < 0o10000
        · rw [if_neg h1, if_pos h4, bind_ok, if_pos ⟨by omega, h4⟩]
          split at hc
          · cases hc
          · rename_i hf
            have hb : 36 ≤ s.cfg.ffBase + (a - 0o4000) / 1024 := by omega
            refine ⟨.invalidBank (s.cfg.ffBase + (a - 0o4000) / 1024), ?_, rfl⟩
            simp only [readBanked, checkCell, numBanks, if_pos hb, bind_error]
        · refine ⟨.addressOutOfBounds a, ?_, ?_⟩
          · rw [if_neg h1, if_neg h4]
            rfl
          · rw [if_neg (by omega)]
            rfl
  | banked t b o =>
    simp only [refCell] at hc
    split at hc
    · cases hc
    · obtain ⟨e, he, hcode⟩ := checkCell_error ‹_›
      exact ⟨e, by show (checkCell t b o >>= _) = _; rw [he]; rfl, hcode⟩
  | deadBank => exact absurd rfl hd

/-! ### Writing a 15-bit word -/

/-- Writing an erasable cell (R62). -/
theorem writeWord_of_erasable {s : State} {ref : Ref} {b o v : Nat} (hv : v < 2 ^ 15)
    (h : refCell s.cfg ref = some (.erasable, b, o)) :
    writeWord s ref v = .ok (setCell s .erasable b o (BitVec.ofNat 15 v)) := by
  obtain ⟨-, hb, ho⟩ := refCell_some h
  have hw : writeBanked s .erasable b o (BitVec.ofNat 15 v) = .ok (setCell s .erasable b o (BitVec.ofNat 15 v)) := by
    rw [writeBanked, checkCell_ok_iff.mpr ⟨hb, ho⟩]
    rfl
  rw [writeWord_of_lt hv]
  cases ref with
  | direct a =>
    obtain ⟨hl, hc⟩ := canonDirect_of_refCell h
    simp only [isRegAddr, hl, decide_false, hc, bind_ok]
    exact hw
  | banked t' b' o' =>
    simp only [refCell] at h
    split at h
    · cases h
      exact hw
    · cases h
  | deadBank => cases h

/-- Writing a fixed cell stores nothing (R63). -/
theorem writeWord_of_fixed {s : State} {ref : Ref} {b o v : Nat} (hv : v < 2 ^ 15)
    (h : refCell s.cfg ref = some (.fixed, b, o)) : writeWord s ref v = .ok s := by
  obtain ⟨-, hb, ho⟩ := refCell_some h
  have hw : writeBanked s .fixed b o (BitVec.ofNat 15 v) = .ok s := by
    rw [writeBanked, checkCell_ok_iff.mpr ⟨hb, ho⟩]
    rfl
  rw [writeWord_of_lt hv]
  cases ref with
  | direct a =>
    obtain ⟨hl, hc⟩ := canonDirect_of_refCell h
    simp only [isRegAddr, hl, decide_false, hc, bind_ok]
    exact hw
  | banked t' b' o' =>
    simp only [refCell] at h
    split at h
    · cases h
      exact hw
    · cases h
  | deadBank => cases h

/-- Writing a dead bank stores nothing (R64). -/
theorem writeWord_deadBank {s : State} {v : Nat} (hv : v < 2 ^ 15) : writeWord s .deadBank v = .ok s := by
  rw [writeWord_of_lt hv]
  rfl

/-- Writing a register cell is the raw write of that cell (R62). -/
theorem writeWord_of_reg {s : State} {ref : Ref} {r : Reg} {v : Nat} (hv : v < 2 ^ 15)
    (h : refReg s.cfg ref = some r) : writeWord s ref v = writeReg s r v := by
  obtain ⟨a, rfl, hl, hr⟩ := refReg_some h
  rw [writeWord_of_lt hv]
  simp only [isRegAddr, hl, decide_true, if_true, usableReg_some hr, bind_ok]

/-- A reference that names nothing is refused with its code (R62, R65). -/
theorem writeWord_of_none {s : State} {ref : Ref} {v : Nat} (hv : v < 2 ^ 15) (hr : refReg s.cfg ref = none)
    (hc : refCell s.cfg ref = none) (hd : ref ≠ .deadBank) :
    ∃ e, writeWord s ref v = .error e ∧ errCode e = refErrCode s.cfg ref := by
  obtain ⟨e, he, hcode⟩ := readWord_of_none hr hc hd
  refine ⟨e, ?_, hcode⟩
  rw [writeWord_of_lt hv]
  cases ref with
  | direct a =>
    by_cases hl : a < s.cfg.regLimit
    · rw [readWord_direct_reg hl, usableReg_none hr] at he
      simp only [isRegAddr, hl, decide_true, if_true, usableReg_none hr]
      cases he
      rfl
    · rw [readWord_direct_cell hl] at he
      simp only [isRegAddr, hl, decide_false]
      cases hx : canonDirect s.cfg a with
      | error e' =>
        rw [hx] at he
        cases he
        rfl
      | ok x =>
        rw [hx, bind_ok, readBanked] at he
        cases hk : checkCell x.1 x.2.1 x.2.2 with
        | ok u => rw [hk] at he; cases he
        | error e' => rw [hk] at he; cases he; exact writeBanked_error hk
  | banked t b o =>
    rw [show readWord s (.banked t b o) = readBanked s t b o from rfl, readBanked] at he
    cases hk : checkCell t b o with
    | ok u => rw [hk] at he; cases he
    | error e' => rw [hk] at he; cases he; exact writeBanked_error hk
  | deadBank => exact absurd rfl hd

/-- A write that completes leaves everything but register cells and the erasable store as it was. -/
theorem writeWord_frame {s t : State} {ref : Ref} {v : Nat} (h : writeWord s ref v = .ok t) :
    t.cfg = s.cfg ∧ t.sb = s.sb ∧ t.fixed = s.fixed ∧ t.pending = s.pending ∧ t.port = s.port := by
  by_cases hv : v < 2 ^ 15
  · by_cases hr : ∃ r, refReg s.cfg ref = some r
    · obtain ⟨r, hr⟩ := hr
      rw [writeWord_of_reg hv hr] at h
      obtain ⟨h1, h2, -, h4, h5, h6⟩ := writeReg_frame h
      exact ⟨h1, h2, h4, h5, h6⟩
    · have hr' : refReg s.cfg ref = none := by
        cases hx : refReg s.cfg ref with
        | none => rfl
        | some r => exact absurd ⟨r, hx⟩ hr
      cases hc : refCell s.cfg ref with
      | some x =>
        obtain ⟨u, b, o⟩ := x
        cases u with
        | erasable =>
          rw [writeWord_of_erasable hv hc] at h
          cases h
          exact ⟨rfl, rfl, rfl, rfl, rfl⟩
        | fixed =>
          rw [writeWord_of_fixed hv hc] at h
          cases h
          exact ⟨rfl, rfl, rfl, rfl, rfl⟩
      | none =>
        by_cases hd : ref = .deadBank
        · rw [hd, writeWord_deadBank hv] at h
          cases h
          exact ⟨rfl, rfl, rfl, rfl, rfl⟩
        · obtain ⟨e, he, -⟩ := writeWord_of_none hv hr' hc hd
          rw [he] at h
          cases h
  · rw [writeWord_of_le (Nat.not_lt.mp hv)] at h
    cases h

/-! ### Operands -/

theorem regAtAddress_of_regAt {cfg : Config} {a : Nat} {r : Reg} (h : regAtAddress cfg a = some r) :
    regAt cfg a = some r := by
  unfold regAtAddress at h
  split at h
  · exact (Option.filter_eq_some_iff.mp h).1
  · cases h

/-- The register address of a wide reference, when the reference names a register cell (R140). -/
theorem wideAddr_of_reg {cfg : Config} {a : Nat} {r : Reg} (h : regAtAddress cfg a = some r) :
    wideAddr cfg (.direct a) = if r = .a ∨ r = .q then some a else none := by
  have hl := refReg_lt h
  have hr := regAtAddress_of_regAt h
  simp only [wideAddr, isWide, regOf, isRegAddr, hl, decide_true, if_true, hr]
  cases r <;> simp

/-- A reference that names a storage cell is narrow. -/
theorem wideAddr_of_cell {cfg : Config} {ref : Ref} {x : Store × Nat × Nat} (h : refCell cfg ref = some x) :
    wideAddr cfg ref = none := by
  cases ref with
  | direct a =>
    obtain ⟨t, b, o⟩ := x
    obtain ⟨hl, -⟩ := canonDirect_of_refCell h
    simp [wideAddr, isWide, regOf, isRegAddr, hl]
  | banked t b o => rfl
  | deadBank => rfl

/-- Everything `loadOperand` can do when it completes (R140). -/
theorem loadOperand_of_some {s : State} {ref : Ref} {op : Operand} (h : operandOf s ref = some op) :
    loadOperand s ref = .ok op := by
  unfold operandOf at h
  cases hr : refReg s.cfg ref with
  | some r =>
    rw [hr] at h
    have hread := readWord_of_reg hr
    obtain ⟨a, rfl, hl, hra⟩ := refReg_some hr
    rw [loadOperand, wideAddr_of_reg hra]
    cases r <;> cases h <;> simp only [reduceCtorEq, or_self, or_true, true_or, if_true, if_false] <;>
      first | (rw [usableReg_some hra]; rfl) | (rw [hread]; rfl)
  | none =>
    rw [hr] at h
    cases hc : refCell s.cfg ref with
    | some x =>
      rw [hc] at h
      cases h
      rw [loadOperand, wideAddr_of_cell hc, readWord_of_cell hc]
      rfl
    | none =>
      rw [hc] at h
      simp only at h
      split at h
      · rename_i hd
        cases h
        rw [hd]
        rfl
      · cases h

/-- An operand that cannot be read is refused with the code of its reference (R151, R167). -/
theorem loadOperand_of_none {s : State} {ref : Ref} (h : operandOf s ref = none) :
    ∃ e, loadOperand s ref = .error e ∧ errCode e = refErrCode s.cfg ref := by
  unfold operandOf at h
  cases hr : refReg s.cfg ref with
  | some r => rw [hr] at h; cases r <;> cases h
  | none =>
    rw [hr] at h
    cases hc : refCell s.cfg ref with
    | some x => rw [hc] at h; cases h
    | none =>
      rw [hc] at h
      simp only at h
      split at h
      · cases h
      · rename_i hd
        obtain ⟨e, he, hcode⟩ := readWord_of_none hr hc hd
        refine ⟨e, ?_, hcode⟩
        rw [loadOperand]
        cases hw : wideAddr s.cfg ref with
        | none => rw [he]; rfl
        | some a =>
          cases ref with
          | direct a' =>
            simp only [wideAddr] at hw
            split at hw
            · rename_i hwide
              cases hw
              have hl : a < s.cfg.regLimit := by
                by_contra hn
                simp [isWide, regOf, isRegAddr, hn] at hwide
              rw [readWord_direct_reg hl, usableReg_none hr] at he
              show (usableReg s.cfg a >>= _) = _
              rw [usableReg_none hr]
              cases he
              rfl
            · cases hw
          | banked t b o => cases hw
          | deadBank => cases hw

/-- Storing to A or Q is the raw write of that register (R140). -/
theorem storeOperand_of_wide {s : State} {ref : Ref} {r : Reg} (v : Operand) (h : refReg s.cfg ref = some r)
    (hw : r = .a ∨ r = .q) : storeOperand s ref v = writeReg s r v.toNat := by
  obtain ⟨a, rfl, hl, hra⟩ := refReg_some h
  rw [storeOperand, wideAddr_of_reg hra, if_pos hw]
  show (usableReg s.cfg a >>= _) = _
  rw [usableReg_some hra]
  rfl

/-- Storing to any other register cell is the generic write (R140). -/
theorem storeOperand_of_narrow {s : State} {ref : Ref} {r : Reg} (v : Operand) (h : refReg s.cfg ref = some r)
    (hw : ¬ (r = .a ∨ r = .q)) : storeOperand s ref v = writeWord s ref v.toNat := by
  obtain ⟨a, rfl, hl, hra⟩ := refReg_some h
  rw [storeOperand, wideAddr_of_reg hra, if_neg hw]

/-- Storing to a storage cell is the generic write (R140). -/
theorem storeOperand_of_cell {s : State} {ref : Ref} {x : Store × Nat × Nat} (v : Operand)
    (h : refCell s.cfg ref = some x) : storeOperand s ref v = writeWord s ref v.toNat := by
  rw [storeOperand, wideAddr_of_cell h]

/-- A store that completes leaves everything but register cells and the erasable store as it was. -/
theorem storeOperand_frame {s t : State} {ref : Ref} {v : Operand} (h : storeOperand s ref v = .ok t) :
    t.cfg = s.cfg ∧ t.sb = s.sb ∧ t.fixed = s.fixed ∧ t.pending = s.pending ∧ t.port = s.port := by
  unfold storeOperand at h
  split at h
  · obtain ⟨r, -, hr⟩ := bind_eq_ok h
    obtain ⟨h1, h2, -, h4, h5, h6⟩ := writeReg_frame hr
    exact ⟨h1, h2, h4, h5, h6⟩
  · exact writeWord_frame h

end Sys2Proof.Machine
end

