-- ==== Sys2Proof/Laws/Exec.lean ====
section
/-!
SUPPORT. Laws of `exec`: the two formats of one operation, and the shape every meaning has.
-/

namespace Sys2Proof.Machine

/-- A format F command with a 12-bit field is the format R command on the reference the field resolves to (R87). -/
theorem exec_field (s : State) {k : Nat} (hk : k < 2 ^ 12) {op : (Nat → Instr) × (Ref → Instr)}
    (hop : op ∈ bothFormats) : exec (op.1 k) s = exec (op.2 (fieldRef s k)) s := by
  have hd := deduceAddress_of_lt s hk
  simp only [bothFormats, List.mem_cons, List.not_mem_nil, or_false] at hop
  rcases hop with rfl | rfl | rfl | rfl | rfl | rfl | rfl
  · show execReadF k s = execReadR _ s
    rw [execReadF, hd]
    rfl
  · show execWriteF k s = execWriteR _ s
    rw [execWriteF, hd]
    rfl
  · show execAdF k s = execAdR _ s
    rw [execAdF, hd]
    rfl
  · show execIncrF k s = execIncrR _ s
    rw [execIncrF, hd]
    rfl
  · show execAugF k s = execAugR _ s
    rw [execAugF, hd]
    rfl
  · show execDimF k s = execDimR _ s
    rw [execDimF, hd]
    rfl
  · show execSuF k s = execSuR _ s
    rw [execSuF, hd]
    rfl

/-- Whatever its format, an operation on a reference is its format R command. -/
theorem exec_of_actsOn {s : State} {ref : Ref} {i : Instr} {op : (Nat → Instr) × (Ref → Instr)}
    (hop : op ∈ bothFormats) (h : ActsOn s ref op.1 op.2 i) : exec i s = exec (op.2 ref) s := by
  rcases h with rfl | ⟨k, hk, rfl, rfl⟩
  · rfl
  · exact exec_field s hk hop

theorem read_mem : ((Instr.readF, Instr.readR) : (Nat → Instr) × (Ref → Instr)) ∈ bothFormats := by
  simp [bothFormats]

theorem write_mem : ((Instr.writeF, Instr.writeR) : (Nat → Instr) × (Ref → Instr)) ∈ bothFormats := by
  simp [bothFormats]

theorem ad_mem : ((Instr.adF, Instr.adR) : (Nat → Instr) × (Ref → Instr)) ∈ bothFormats := by
  simp [bothFormats]

theorem incr_mem : ((Instr.incrF, Instr.incrR) : (Nat → Instr) × (Ref → Instr)) ∈ bothFormats := by
  simp [bothFormats]

theorem aug_mem : ((Instr.augF, Instr.augR) : (Nat → Instr) × (Ref → Instr)) ∈ bothFormats := by
  simp [bothFormats]

theorem dim_mem : ((Instr.dimF, Instr.dimR) : (Nat → Instr) × (Ref → Instr)) ∈ bothFormats := by
  simp [bothFormats]

theorem su_mem : ((Instr.suF, Instr.suR) : (Nat → Instr) × (Ref → Instr)) ∈ bothFormats := by
  simp [bothFormats]

/-- A format F command whose field has 13 bits or more, which no command word carries, is refused (R56). -/
theorem exec_field_of_le (s : State) {k : Nat} (hk : 2 ^ 12 ≤ k) {op : (Nat → Instr) × (Ref → Instr)}
    (hop : op ∈ bothFormats) : exec (op.1 k) s = .next (takeError s (.valueTooWide k 12)) := by
  have hd := deduceAddress_of_le s hk
  simp only [bothFormats, List.mem_cons, List.not_mem_nil, or_false] at hop
  rcases hop with rfl | rfl | rfl | rfl | rfl | rfl | rfl
  · show execReadF k s = _
    rw [execReadF, hd]
    rfl
  · show execWriteF k s = _
    rw [execWriteF, hd]
    rfl
  · show execAdF k s = _
    rw [execAdF, hd]
    rfl
  · show execIncrF k s = _
    rw [execIncrF, hd]
    rfl
  · show execAugF k s = _
    rw [execAugF, hd]
    rfl
  · show execDimF k s = _
    rw [execDimF, hd]
    rfl
  · show execSuF k s = _
    rw [execSuF, hd]
    rfl

/-- The one operation each instruction is concluded from (R160). -/
def meaning (i : Instr) (s : State) : Except Err State :=
  match i with
  | .readF k => deduceAddress s k >>= readRef s
  | .writeF k => deduceAddress s k >>= writeRef s
  | .deduce k => deduceAddress s k >>= fun ref => pure (answer s 0#16 (pack ref))
  | .adF k => deduceAddress s k >>= adRef s
  | .com => writeReg s .a (notWord s.a).toNat >>= fun s' => pure (done s')
  | .incrF k => deduceAddress s k >>= incrRef s
  | .augF k => deduceAddress s k >>= augRef s
  | .dimF k => deduceAddress s k >>= dimRef s
  | .suF k => deduceAddress s k >>= suRef s
  | .double => addToA s s.a >>= fun s' => pure (done s')
  | .regread n => usableReg s.cfg n >>= fun r => pure (answer s (readReg s r) 0#20)
  | .regwrite n => usableReg s.cfg n >>= fun r => writeReg s r (dataIn s) >>= fun s' => pure (answer s' 0#16 0#20)
  | .setsb b => .ok (answer { s with sb := b } 0#16 0#20)
  | .readR ref => readRef s ref
  | .writeR ref => writeRef s ref
  | .adR ref => adRef s ref
  | .incrR ref => incrRef s ref
  | .augR ref => augRef s ref
  | .dimR ref => dimRef s ref
  | .suR ref => suRef s ref
  | .bankread t b o => readBanked s t b o >>= fun w => pure (answer s (w.setWidth 16) 0#20)
  | .bankwrite t b o =>
    asWord 15 (dataIn s) >>= fun w => checkCell t b o >>= fun _ => pure (answer (setCell s t b o w) 0#16 0#20)

/-- Every instruction concludes one operation begun in the state: it answers the operation's state, or takes the error
it failed with (R160, R166). -/
theorem exec_eq_conclude (i : Instr) (s : State) : exec i s = conclude s (meaning i s) := by
  cases i <;> rfl

/-- Everything `exec` can do. -/
theorem exec_next {i : Instr} {s t : State} (h : exec i s = .next t) :
    meaning i s = .ok t ∨ ∃ e, meaning i s = .error e ∧ t = takeError s e :=
  conclude_next (exec_eq_conclude i s ▸ h)

/-- Everything a step can do: idle, the decoded instruction, or the refusal of a reserved encoding. -/
theorem step_cases (s : State) :
    (s.pending = [] ∧ step s = .next s) ∨
    ∃ c rest, s.pending = c :: rest ∧
      ((∃ i, decode c.form c.cmd = .ok i ∧ step s = exec i (present s c rest)) ∨
        ∃ r, decode c.form c.cmd = .error r ∧ step s = .next (takeError (present s c rest) .invalidCommand)) := by
  unfold step
  cases hp : s.pending with
  | nil => exact .inl ⟨rfl, rfl⟩
  | cons c rest =>
    refine .inr ⟨c, rest, rfl, ?_⟩
    show (∃ i, _ ∧ runPort (present s c rest) = _) ∨ ∃ r, _ ∧ runPort (present s c rest) = _
    simp only [runPort, present_port]
    cases hd : decode c.form c.cmd with
    | ok i => exact .inl ⟨i, rfl, rfl⟩
    | error r => exact .inr ⟨r, rfl, rfl⟩

end Sys2Proof.Machine
end

