-- ==== Sys2Proof/Laws/PerInstr.lean ====
section
/-!
SUPPORT. Per-instruction laws: the encoder drives, for every instruction, the format and the operation code of its row of
the opcode table (R87 to R89).
-/

namespace Sys2Proof.Laws.TableRow

/-- The format and the operation code of an instruction's row, from the table of R89. -/
def row : Instr → Format × BitVec 4
  | .readF _ => (.field, 0#4)
  | .writeF _ => (.field, 1#4)
  | .deduce _ => (.field, 2#4)
  | .adF _ => (.field, 3#4)
  | .com => (.field, 4#4)
  | .incrF _ => (.field, 5#4)
  | .augF _ => (.field, 6#4)
  | .dimF _ => (.field, 7#4)
  | .suF _ => (.field, 8#4)
  | .double => (.field, 9#4)
  | .regread _ => (.field, 10#4)
  | .regwrite _ => (.field, 11#4)
  | .setsb _ => (.field, 14#4)
  | .readR _ => (.reference, 0#4)
  | .writeR _ => (.reference, 1#4)
  | .adR _ => (.reference, 3#4)
  | .incrR _ => (.reference, 5#4)
  | .augR _ => (.reference, 6#4)
  | .dimR _ => (.reference, 7#4)
  | .suR _ => (.reference, 8#4)
  | .bankread _ _ _ => (.reference, 12#4)
  | .bankwrite _ _ _ => (.reference, 13#4)

/-- The operation code of a command word (R87, R88): bits 16:13 in format F, bits 24:21 in format R. -/
def opField : Format → CmdWord → BitVec 4
  | .field, w => w.extractLsb' 12 4
  | .reference, w => w.extractLsb' 20 4

/-- The signals that stand for `i` select its row's format and carry its row's operation code. -/
def Statement (i : Instr) : Prop :=
  (encode i).1 = (row i).1 ∧ opField (row i).1 (encode i).2 = (row i).2

theorem readF (k : Nat) : Statement (.readF k) :=
  ⟨rfl, wordF_op 0#4 k⟩

theorem writeF (k : Nat) : Statement (.writeF k) :=
  ⟨rfl, wordF_op 1#4 k⟩

theorem deduce (k : Nat) : Statement (.deduce k) :=
  ⟨rfl, wordF_op 2#4 k⟩

theorem adF (k : Nat) : Statement (.adF k) :=
  ⟨rfl, wordF_op 3#4 k⟩

theorem com : Statement (.com) :=
  ⟨rfl, wordF_op 4#4 0⟩

theorem incrF (k : Nat) : Statement (.incrF k) :=
  ⟨rfl, wordF_op 5#4 k⟩

theorem augF (k : Nat) : Statement (.augF k) :=
  ⟨rfl, wordF_op 6#4 k⟩

theorem dimF (k : Nat) : Statement (.dimF k) :=
  ⟨rfl, wordF_op 7#4 k⟩

theorem suF (k : Nat) : Statement (.suF k) :=
  ⟨rfl, wordF_op 8#4 k⟩

theorem double : Statement (.double) :=
  ⟨rfl, wordF_op 9#4 0⟩

theorem regread (n : Nat) : Statement (.regread n) :=
  ⟨rfl, wordF_op 10#4 n⟩

theorem regwrite (n : Nat) : Statement (.regwrite n) :=
  ⟨rfl, wordF_op 11#4 n⟩

theorem setsb (b : Bool) : Statement (.setsb b) :=
  ⟨rfl, wordF_op 14#4 b.toNat⟩

theorem readR (ref : Ref) : Statement (.readR ref) :=
  ⟨rfl, wordR_op 0#4 ref⟩

theorem writeR (ref : Ref) : Statement (.writeR ref) :=
  ⟨rfl, wordR_op 1#4 ref⟩

theorem adR (ref : Ref) : Statement (.adR ref) :=
  ⟨rfl, wordR_op 3#4 ref⟩

theorem incrR (ref : Ref) : Statement (.incrR ref) :=
  ⟨rfl, wordR_op 5#4 ref⟩

theorem augR (ref : Ref) : Statement (.augR ref) :=
  ⟨rfl, wordR_op 6#4 ref⟩

theorem dimR (ref : Ref) : Statement (.dimR ref) :=
  ⟨rfl, wordR_op 7#4 ref⟩

theorem suR (ref : Ref) : Statement (.suR ref) :=
  ⟨rfl, wordR_op 8#4 ref⟩

theorem bankread (t : Store) (b o : Nat) : Statement (.bankread t b o) :=
  ⟨rfl, wordR_op 12#4 (.banked t b o)⟩

theorem bankwrite (t : Store) (b o : Nat) : Statement (.bankwrite t b o) :=
  ⟨rfl, wordR_op 13#4 (.banked t b o)⟩

end Sys2Proof.Laws.TableRow
end

