-- ==== Sys2Proof/Tests/Slice0.lean ====
section
/-!
SUPPORT. Tests: the smoke tests of well-formedness, the decoding of words written out from the spec, small tests of one
operation with values from spec/95_test_vectors.md, and for every obligation with hypotheses a witness that meets them.
-/

namespace Sys2Proof.Tests

open Sys2Proof Sys2Proof.Machine

/-! ### Helpers -/

/-- The state after one instruction. -/
def afterExec (i : Instr) (s : State) : State :=
  match exec i s with
  | .next t => t
  | .fault _ => s
  | .refused _ => s

/-- The state after one step. -/
def afterStep (s : State) : State :=
  match step s with
  | .next t => t
  | .fault _ => s
  | .refused _ => s

theorem exec_afterExec (i : Instr) (s : State) : exec i s = .next (afterExec i s) := by
  unfold afterExec
  rw [exec_eq_conclude]
  cases meaning i s <;> rfl

/-- The reset machine with `w` in the erasable cell `E[0][0o100]`, the raw value `v` in A and `d` on `din`. -/
def small (v : Acc) (w : Word) (d : BitVec 16) : State :=
  { State.reset with
    a := v, erasable := writeCell [] 0o100 w, port := ⟨.field, 0#24, d⟩ }

/-- The word in a cell after one instruction. -/
def cellAfter (i : Instr) (s : State) (t : Store) (b o : Nat) : Word :=
  cell (afterExec i s) t b o

/-! ### Well-formedness: each check refuses an ill-formed term and accepts the largest operand -/

theorem test_wf_field_too_wide :
    ∀ i ∈ [Instr.readF 4096, .writeF 4096, .deduce 4096, .adF 4096, .incrF 4096, .augF 4096, .dimF 4096, .suF 4096,
      .regread 4096, .regwrite 4096], i.wf = false := by decide

theorem test_wf_field_largest :
    ∀ i ∈ [Instr.readF 4095, .writeF 4095, .deduce 4095, .adF 4095, .incrF 4095, .augF 4095, .dimF 4095, .suF 4095,
      .regread 4095, .regwrite 4095, .com, .double, .setsb true], i.wf = true := by decide

theorem test_wf_direct_too_wide :
    ∀ i ∈ [Instr.readR (.direct 262144), .writeR (.direct 262144), .adR (.direct 262144), .incrR (.direct 262144),
      .augR (.direct 262144), .dimR (.direct 262144), .suR (.direct 262144)], i.wf = false := by decide

theorem test_wf_bank_too_wide :
    ∀ i ∈ [Instr.readR (.banked .fixed 128 0), .writeR (.banked .fixed 128 0), .adR (.banked .fixed 128 0),
      .incrR (.banked .fixed 128 0), .augR (.banked .fixed 128 0), .dimR (.banked .fixed 128 0),
      .suR (.banked .fixed 128 0), .bankread .erasable 128 0, .bankwrite .erasable 128 0], i.wf = false := by decide

theorem test_wf_offset_too_wide :
    ∀ i ∈ [Instr.readR (.banked .fixed 0 1024), .writeR (.banked .fixed 0 1024), .adR (.banked .fixed 0 1024),
      .incrR (.banked .fixed 0 1024), .augR (.banked .fixed 0 1024), .dimR (.banked .fixed 0 1024),
      .suR (.banked .fixed 0 1024), .bankread .erasable 0 1024, .bankwrite .erasable 0 1024], i.wf = false := by decide

theorem test_wf_reference_largest :
    ∀ i ∈ [Instr.readR (.direct 262143), .writeR (.banked .fixed 127 1023), .suR .deadBank, .bankread .fixed 127 1023,
      .bankwrite .erasable 127 1023], i.wf = true := by decide

/-! ### Decoding: every row of R89, the word written out bit by bit from the row's pattern -/

theorem test_decode_readF : decode .field 0b0000001111111111#24 = .ok (.readF 0o1777) := by decide
theorem test_decode_writeF : decode .field 0b0001001111111111#24 = .ok (.writeF 0o1777) := by decide
theorem test_decode_deduce : decode .field 0b0010010000000101#24 = .ok (.deduce 0o2005) := by decide
theorem test_decode_adF : decode .field 0b0011000001000000#24 = .ok (.adF 0o100) := by decide
theorem test_decode_com : decode .field 0b0100000000000000#24 = .ok .com := by decide
theorem test_decode_incrF : decode .field 0b0101000010000000#24 = .ok (.incrF 0o200) := by decide
theorem test_decode_augF : decode .field 0b0110000010000001#24 = .ok (.augF 0o201) := by decide
theorem test_decode_dimF : decode .field 0b0111100000000010#24 = .ok (.dimF 0o4002) := by decide
theorem test_decode_suF : decode .field 0b1000000001000001#24 = .ok (.suF 0o101) := by decide
theorem test_decode_double : decode .field 0b1001000000000000#24 = .ok .double := by decide
theorem test_decode_regread : decode .field 0b1010000000000100#24 = .ok (.regread 4) := by decide
theorem test_decode_regwrite : decode .field 0b1011000000000110#24 = .ok (.regwrite 6) := by decide
theorem test_decode_setsb : decode .field 0b1110000000000001#24 = .ok (.setsb true) := by decide

theorem test_decode_readR :
    decode .reference 0b000001000000110011111111#24 = .ok (.readR (.banked .erasable 3 0o377)) := by decide
theorem test_decode_writeR :
    decode .reference 0b000110000000000000000000#24 = .ok (.writeR .deadBank) := by decide
theorem test_decode_adR :
    decode .reference 0b001100000000001000000000#24 = .ok (.adR (.direct 0o1000)) := by decide
theorem test_decode_incrR :
    decode .reference 0b010100100000000000000001#24 = .ok (.incrR (.direct 0o400001)) := by decide
theorem test_decode_augR :
    decode .reference 0b011001101000110000000101#24 = .ok (.augR (.banked .fixed 35 5)) := by decide
theorem test_decode_dimR :
    decode .reference 0b011110000000000000000000#24 = .ok (.dimR .deadBank) := by decide
theorem test_decode_suR :
    decode .reference 0b100000000000000000000010#24 = .ok (.suR (.direct 2)) := by decide
theorem test_decode_bankread :
    decode .reference 0b110001010001100000000000#24 = .ok (.bankread .erasable 0o106 0) := by decide
theorem test_decode_bankwrite :
    decode .reference 0b110101100000000000001111#24 = .ok (.bankwrite .fixed 0 0o17) := by decide

/-- One word of each reserved class of R91 (spec/95_test_vectors.md 2.7). -/
theorem test_decode_reserved :
    decode .field 0xF000#24 = .error .op15 ∧ decode .reference 0xF00000#24 = .error .op15 ∧
    decode .reference 0x200000#24 = .error .notInFormatR ∧ decode .field 0xC000#24 = .error .notInFormatF ∧
    decode .field 0xD000#24 = .error .notInFormatF ∧ decode .field 0x4001#24 = .error .operandNotZero ∧
    decode .field 0xE002#24 = .error .flagFieldTooWide ∧ decode .reference 0x0C0000#24 = .error .badReference ∧
    decode .reference 0x380001#24 = .error .badReference ∧ decode .reference 0xC00005#24 = .error .notBanked := by
  decide

/-- The packed references of V-D5, V-D9, V-D12 and V-D16 (spec/95_test_vectors.md 2.3). -/
theorem test_pack :
    pack (.banked .erasable 3 0o377) = 0x40CFF#20 ∧ pack (.banked .fixed 23 0o1777) = 0x65FFF#20 ∧
    pack .deadBank = 0x80000#20 ∧ pack (.direct 0o7777) = 0x00FFF#20 := by decide

theorem test_decodeTableWord :
    decodeTableWord 16 0x3040 = some (.adF 0o100) ∧
    decodeTableWord 24 0xD6000F = some (.bankwrite .fixed 0 0o17) ∧
    decodeTableWord 16 0xF000 = none ∧ decodeTableWord 24 0x380001 = none := by decide

/-! ### One step: values from spec/95_test_vectors.md -/

/-- The word of COM, placed as the next command after reset, is presented and performed by the next step. -/
theorem test_step_fetch_word :
    (afterStep (State.reset.withFetchWord 16 0x4000)).a = 0o177777#16 ∧
    (afterStep (State.reset.withFetchWord 16 0x4000)).pending = [] := by decide

/-- Part 2.2: REGREAD answers 16 bits of A, READ 15. -/
theorem test_readF_masks_A : (afterExec (.readF 0) (small 0o177777 0 0)).dout = 0o077777#16 := by decide

theorem test_regread_A : (afterExec (.regread 0) (small 0o177777 0 0)).dout = 0o177777#16 := by decide

/-- Part 2.2: BBANK is computed from FBANK and EBANK. -/
theorem test_regread_bbank :
    (afterExec (.regread 6) { State.reset with fbank := 0o33, ebank := 0o1400 }).dout = 0o066003#16 := by decide

/-- P2: the switched field reads the bank EBANK selects, here a cell nothing has written. -/
theorem test_readF_switched :
    (afterExec (.readF 0o1500) (small 0 0o11111 0)).dout = 0o11111#16 ∧
    (afterExec (.readF 0o1500) { small 0 0o11111 0 with ebank := 0o400 }).dout = 0#16 := by decide

/-- S4: the direct and the banked reference are one cell. -/
theorem test_readR_alias :
    (afterExec (.readR (.banked .erasable 0 0o100)) (small 0 0o11111 0)).dout = 0o11111#16 := by decide

/-- P2, rows 29 and 30. -/
theorem test_readR_errors :
    (afterExec (.readR (.direct 0o2000)) State.reset).err = 4#3 ∧
    (afterExec (.readR (.banked .fixed 36 0)) State.reset).err = 3#3 := by decide

/-- Part 2.2: a generic write to A does not sign-extend; 16-bit data is refused. -/
theorem test_writeF_A :
    (afterExec (.writeF 0) (small 0 0 0o77776)).a = 0o077776#16 ∧
    (afterExec (.writeF 0) (small 7 0 0o100000)).a = 7#16 ∧
    (afterExec (.writeF 0) (small 7 0 0o100000)).err = 1#3 := by decide

/-- Part 2.4: `0o1377` is the last cell of erasable bank 2. -/
theorem test_writeF_bank2 : cellAfter (.writeF 0o1377) (small 0 0 0o12345) .erasable 2 0o377 = 0o12345#15 := by decide

/-- S11: fixed storage drops the word. P4, row 18. -/
theorem test_writeR_fixed :
    cellAfter (.writeR (.banked .fixed 0 0o17)) (small 0 0 5) .fixed 0 0o17 = 0#15 ∧
    (afterExec (.writeR (.banked .erasable 8 0)) (small 0 0 1)).err = 3#3 := by decide

/-- V-D8 and V-D12: the last live bank and the first dead one, with the superbank flag set. -/
theorem test_deduce_superbank :
    (afterExec (.deduce 0o2005) { State.reset with fbank := 0o33, sb := true }).refOut = 0x68C05#20 ∧
    (afterExec (.deduce 0o2000) { State.reset with fbank := 0o34, sb := true }).refOut = 0x80000#20 := by decide

/-- V-D6 and V-D3. -/
theorem test_deduce_erasable :
    (afterExec (.deduce 0o1401) { State.reset with ebank := 0o3400 }).refOut = 0x41C01#20 ∧
    (afterExec (.deduce 0o1377) { State.reset with ebank := 0o3400 }).refOut = 0x002FF#20 := by decide

/-- Part 2.2, the cells with a rule of their own. -/
theorem test_regwrite_cells :
    (afterExec (.regwrite 1) (small 0 0 0o140001)).l = 0o40001#15 ∧
    (afterExec (.regwrite 6) (small 0 0 0o66003)).fbank = 0o33#5 ∧
    (afterExec (.regwrite 6) (small 0 0 0o66003)).ebank = 0o1400#15 ∧
    (afterExec (.regwrite 0o20) (small 0 0 0o12345)).cyr = 0o45162#15 ∧
    (afterExec (.regwrite 0o21) (small 0 0 0o40001)).sr = 0o20000#15 ∧
    (afterExec (.regwrite 0o22) (small 0 0 0o12345)).cyl = 0o24712#15 ∧
    (afterExec (.regwrite 0o23) (small 0 0 0o12345)).edop = 0o51#7 := by decide

/-- Part 2.2, the refusals. -/
theorem test_regwrite_errors :
    (afterExec (.regwrite 3) (small 0 0 0o00003)).err = 2#3 ∧ (afterExec (.regwrite 3) (small 0 0 0o100000)).err = 1#3 ∧
    (afterExec (.regwrite 4) (small 0 0 0o40)).err = 1#3 ∧ (afterExec (.regwrite 5) (small 0 0 0o10000)).err = 1#3 ∧
    (afterExec (.regwrite 6) (small 0 0 0o00010)).err = 2#3 ∧ (afterExec (.regwrite 7) (small 0 0 0)).err = 4#3 ∧
    (afterExec (.regwrite 0o20) (small 0 0 0o100000)).err = 1#3 := by decide

/-- R126, example. -/
theorem test_bankwrite_fixed :
    cellAfter (.bankwrite .fixed 0 0o17) (small 0 0 0o30001) .fixed 0 0o17 = 0o30001#15 := by decide

theorem test_bankread_bounds :
    (afterExec (.bankread .fixed 35 0o1777) State.reset).err = 0#3 ∧
    (afterExec (.bankread .fixed 36 0) State.reset).err = 3#3 ∧
    (afterExec (.bankread .erasable 7 256) State.reset).err = 4#3 := by decide

theorem test_setsb : (afterExec (.setsb true) State.reset).sb = true := by decide

/-- S5 and S6. -/
theorem test_adF :
    (afterExec (.adF 0o100) (small 1 0o77776 0)).a = 0o177777#16 ∧
    (afterExec (.adF 0o100) (small 0o022000 0o26000 0)).a = 0o050000#16 := by decide

/-- Part 2.5: Q is used raw; a dead bank adds +0. -/
theorem test_adR :
    (afterExec (.adR (.direct 2)) { State.reset with q := 0o100001 }).a = 0o100001#16 ∧
    (afterExec (.adR .deadBank) (small 0o120000 0 0)).a = 0o120000#16 := by decide

/-- Part 2.5. -/
theorem test_suF :
    (afterExec (.suF 0o100) (small 5 3 0)).a = 2#16 ∧
    (afterExec (.suF 0o100) (small 0o140000 0o37777 0)).a = 0o100001#16 := by decide

theorem test_suR : (afterExec (.suR (.direct 0)) (small 0o012345 0 0)).a = 0o177777#16 := by decide

theorem test_com : (afterExec .com (small 0o050000 0 0)).a = 0o127777#16 := by decide

theorem test_double :
    (afterExec .double (small 0o140000 0 0)).a = 0o100001#16 ∧ (afterExec .double (small 0o100000 0 0)).a = 1#16 := by
  decide

/-- Part 2.6, S7: −0 of 15 bits rolls to +1. The store of Z is refused at `0o7777`. -/
theorem test_incrF :
    cellAfter (.incrF 0o100) (small 0 0o77777 0) .erasable 0 0o100 = 1#15 ∧
    (afterExec (.incrF 5) { State.reset with z := 0o7777 }).err = 1#3 := by decide

/-- Part 2.6: CYR stores the transform of the new value; 16 bits of Q. -/
theorem test_incrR :
    (afterExec (.incrR (.direct 0o20)) { State.reset with cyr := 0o40000 }).cyr = 0o60000#15 ∧
    (afterExec (.incrR (.direct 2)) { State.reset with q := 0o177777 }).q = 1#16 := by decide

/-- Part 2.6: 15-bit AUG oscillates at the boundary (R149), 16-bit AUG does not (S8). -/
theorem test_augF :
    cellAfter (.augF 0o100) (small 0 0o40000 0) .erasable 0 0o100 = 0o37777#15 ∧
    (afterExec (.augF 0) (small 0o040000 0 0)).a = 0o040001#16 := by decide

theorem test_augR : (afterExec (.augR (.direct 0)) (small 0o177776 0 0)).a = 0o177775#16 := by decide

/-- Part 2.6: +1 goes to −0. -/
theorem test_dimF :
    cellAfter (.dimF 0o100) (small 0 1 0) .erasable 0 0o100 = 0o77777#15 ∧
    (afterExec (.dimF 0) (small 0o040000 0 0)).a = 0o037777#16 := by decide

/-- S9, and a zero operand is not written back: DIM of an EBANK of 0 raises nothing. -/
theorem test_dimR :
    (afterExec (.dimR (.direct 0)) (small 0o177777 0 0)).a = 0o177777#16 ∧
    (afterExec (.dimR (.direct 3)) State.reset).err = 0#3 := by decide

/-! ### Witnesses: for every obligation with hypotheses, a state and operands that meet them

Where a statement has several clauses, each has its own case, at the boundary of its range where it has one. -/

/-- A state with EBANK at bank 2, FBANK at its largest dead value under the superbank flag, and a word in a cell of each
store, the last cells among them. -/
def busy : State :=
  { State.reset with
    a := 0o177776, q := 0o100001, l := 0o77777, ebank := 0o1000, fbank := 0o34, sb := true,
    erasable := [(0o100, 0o77776), (2047, 1)], fixed := [(15, 0o30001), (36863, 5)],
    port := ⟨.field, 0#24, 0o12345⟩ }

theorem next_exists (i : Instr) (s : State) : ∃ t, exec i s = .next t := ⟨_, exec_afterExec i s⟩

theorem witness_DecodeOfEncode :
    (Instr.bankwrite .fixed 127 1023).wf = true ∧ (Instr.adR (.direct 262143)).wf = true ∧
    (Instr.writeF 4095).wf = true := by decide

theorem witness_EncodeOfDecode :
    decode .reference 0xD6000F#24 = .ok (.bankwrite .fixed 0 0o17) ∧ decode .field 0xFF3040#24 = .ok (.adF 0o100) := by
  decide

theorem witness_ReservedEncodingsAreTheSevenClasses :
    decode .field 0xE002#24 = .error .flagFieldTooWide ∧ decode .reference 0x380001#24 = .error .badReference ∧
    (0x380001#24).toNat / 2 ^ 18 % 4 = 2 := by decide

theorem witness_FormatFIgnoresTheHighBits :
    (0xFF3040#24).extractLsb' 0 16 = (0x003040#24).extractLsb' 0 16 := by decide

theorem witness_PackAndUnpackAreInverse :
    (Ref.direct 262143).wf = true ∧ (Ref.banked .fixed 127 1023).wf = true ∧
    unpack 0x80000#20 = some .deadBank ∧ unpack 0x80001#20 = none ∧ unpack 0xC0000#20 = none := by decide

theorem witness_StepRunsTheDecodedInstruction :
    let c : Command := ⟨.field, 0x4000#24, 0#16⟩
    (withNextCommand State.reset c).pending = c :: [] ∧ decode c.form c.cmd = .ok .com := by decide

theorem witness_ReservedCommandIsAnsweredInvalid :
    let c : Command := ⟨.field, 0xF000#24, 0#16⟩
    (withNextCommand State.reset c).pending = c :: [] ∧ decode c.form c.cmd = .error .op15 := by decide

theorem witness_IdleStepChangesNothing : State.reset.pending = [] := rfl

/-- A state that is not the reset one and has the invariant. -/
theorem busy_inv : Inv busy where
  ebank := by unfold EbankInShape; decide
  sr := by unfold SrInShape; decide
  stores := by unfold StoresCanonical; decide
  outputs := by unfold OutputsConsistent; decide

theorem witness_StepKeepsTheInvariant :
    let s := withNextCommand busy ⟨.field, 0x3040#24, 0#16⟩
    Inv s ∧ ∃ t, step s = .next t ∧ t.a = 0o177775#16 :=
  ⟨⟨busy_inv.ebank, busy_inv.sr, busy_inv.stores, busy_inv.outputs⟩, _,
    exec_afterExec (.adF 0o100) (present (withNextCommand busy ⟨.field, 0x3040#24, 0#16⟩) ⟨.field, 0x3040#24, 0#16⟩ []),
    by decide⟩

theorem witness_ExecKeepsConfigurationAndPort : ∃ t, exec (.writeF 0o1777) busy = .next t := next_exists _ _

theorem witness_FailedOperationChangesNoState : ∃ t, exec (.incrF 3) busy = .next t ∧ t.err ≠ 0#3 :=
  ⟨_, exec_afterExec _ _, by decide⟩

/-- Also a BANKWRITE to the erasable store, which the hypothesis does not exclude. -/
theorem witness_FixedStorageChangesOnlyByBankwrite :
    ((∃ t, exec (.writeF 0o4017) busy = .next t) ∧ ∀ b o, Instr.writeF 0o4017 ≠ .bankwrite .fixed b o) ∧
    (∃ t, exec (.bankwrite .erasable 0 0) busy = .next t) ∧
      ∀ b o, Instr.bankwrite .erasable 0 0 ≠ .bankwrite .fixed b o :=
  ⟨⟨next_exists _ _, fun _ _ => by simp⟩, next_exists _ _, fun _ _ => by simp⟩

theorem witness_SuperbankFlagChangesOnlyBySetsb :
    (∃ t, exec (.writeF 6) busy = .next t) ∧ ∀ b, Instr.writeF 6 ≠ .setsb b :=
  ⟨next_exists _ _, fun _ => by simp⟩

/-- Q changes by an operation that names it by number, and by one that names it by reference. -/
theorem witness_RegisterChangesOnlyWhenNamed :
    Reg.q ∉ [Reg.a, .ebank, .fbank, .bbank] ∧
    (∃ t, exec (.regwrite 2) busy = .next t ∧ cellValue t .q ≠ cellValue busy .q) ∧
    ∃ t, exec (.incrF 2) busy = .next t ∧ cellValue t .q ≠ cellValue busy .q :=
  ⟨by decide, ⟨_, exec_afterExec _ _, by decide⟩, _, exec_afterExec _ _, by decide⟩

theorem witness_OtherCommandsIgnoreTheData :
    (∀ k, Instr.adF 0o100 ≠ .writeF k) ∧ (∀ ref, Instr.adF 0o100 ≠ .writeR ref) ∧
    (∀ n, Instr.adF 0o100 ≠ .regwrite n) ∧ (∀ u b o, Instr.adF 0o100 ≠ .bankwrite u b o) ∧
    ∃ t, exec (.adF 0o100) busy = .next t :=
  ⟨fun _ => by simp, fun _ => by simp, fun _ => by simp, fun _ _ _ => by simp, next_exists _ _⟩

theorem witness_EachCommandDrivesItsOwnOutput :
    (∃ t, exec (.readF 0o100) busy = .next t ∧ t.dout ≠ 0#16) ∧ (∀ k, Instr.readF 0o100 ≠ .deduce k) ∧
    (∃ t, exec (.deduce 0o1777) busy = .next t ∧ t.refOut ≠ 0#20) ∧ (∀ k, Instr.deduce 0o1777 ≠ .readF k) ∧
    (∀ ref, Instr.deduce 0o1777 ≠ .readR ref) ∧ (∀ n, Instr.deduce 0o1777 ≠ .regread n) ∧
    ∀ u b o, Instr.deduce 0o1777 ≠ .bankread u b o :=
  ⟨⟨_, exec_afterExec _ _, by decide⟩, fun _ => by simp, ⟨_, exec_afterExec _ _, by decide⟩, fun _ => by simp,
    fun _ => by simp, fun _ => by simp, fun _ _ _ => by simp⟩

/-- The fields at the ends of the four kinds of R51, and the first value that is no field. -/
theorem witness_DeduceAnswersTheReferenceOfTheField :
    fieldRef busy 0o1377 = .direct 0o1377 ∧ fieldRef busy 0o1400 = .banked .erasable 2 0 ∧
    fieldRef busy 0o1777 = .banked .erasable 2 255 ∧ fieldRef busy 0o2000 = .deadBank ∧
    fieldRef { busy with fbank := 0o33 } 0o3777 = .banked .fixed 35 1023 ∧ fieldRef busy 0o4000 = .direct 0o4000 ∧
    fieldRef busy 0o7777 = .direct 0o7777 ∧ 0o7777 < 2 ^ 12 ∧ 2 ^ 12 ≤ 0o10000 := by decide

theorem witness_FormatFIsDeduceThenFormatR :
    0o2000 < 2 ^ 12 ∧ (afterExec (.deduce 0o2000) busy).refOut = pack .deadBank ∧ bothFormats.length = 7 := by decide

/-- A direct erasable address with its switched alias, the first and the last; a direct fixed one with its switched
alias, in a state whose FBANK names that bank. -/
theorem witness_AliasesActAlike :
    busy.cfg.regLimit ≤ 0o24 ∧ 0o24 < 0o1400 ∧ busy.cfg.regLimit ≤ 0o1377 ∧ 0o1377 < 0o1400 ∧
    busy.ebank.toNat / 256 = 0o1377 / 256 ∧ 0o4000 ≤ 0o7777 ∧ 0o7777 < 0o10000 ∧
    switchedFixedRef { busy with fbank := 1 } (0o7777 % 1024) =
      .banked .fixed (busy.cfg.ffBase + (0o7777 - 0o4000) / 1024) (0o7777 % 1024) := by decide

/-- The shadowed cell of Z (R67): a WRITE to address 5 and one to `E[0][5]`. -/
theorem witness_ShadowedCellsAreSeparateState :
    5 < busy.cfg.regLimit ∧ (∃ t, exec (.writeR (.direct 5)) busy = .next t) ∧
    ∃ t, exec (.writeR (.banked .erasable 0 5)) busy = .next t :=
  ⟨by decide, next_exists _ _, next_exists _ _⟩

/-- Each kind of reference, in both formats: the last erasable cell under EBANK, a fixed cell, A, a dead bank. -/
theorem witness_ReadAnswersTheNamedWord :
    (ActsOn busy (.banked .erasable 2 255) .readF .readR (.readF 0o1777) ∧
      refCell busy.cfg (.banked .erasable 2 255) = some (.erasable, 2, 255)) ∧
    (ActsOn busy (.direct 0o4017) .readF .readR (.readR (.direct 0o4017)) ∧
      refCell busy.cfg (.direct 0o4017) = some (.fixed, 0, 15)) ∧
    (ActsOn busy (.direct 0) .readF .readR (.readF 0) ∧ refReg busy.cfg (.direct 0) = some .a) ∧
    (ActsOn busy (.direct 0o23) .readF .readR (.readR (.direct 0o23)) ∧
      refReg busy.cfg (.direct 0o23) = some .edop) ∧
    ActsOn busy .deadBank .readF .readR (.readF 0o3777) :=
  ⟨⟨.inr ⟨0o1777, by decide, by decide, rfl⟩, by decide⟩, ⟨.inl rfl, by decide⟩,
    ⟨.inr ⟨0, by decide, by decide, rfl⟩, by decide⟩, ⟨.inl rfl, by decide⟩,
    .inr ⟨0o3777, by decide, by decide, rfl⟩⟩

/-- Each target of a WRITE of the largest 15-bit word: an erasable cell, a fixed one, a dead bank, a register cell that
takes the word and one that refuses it. -/
theorem witness_WriteStoresTheWordByTarget :
    let s := small 0 0 0o77777
    s.port.din.toNat < 2 ^ 15 ∧
    (ActsOn s (.direct 0o24) .writeF .writeR (.writeF 0o24) ∧ refCell s.cfg (.direct 0o24) = some (.erasable, 0, 0o24)) ∧
    (ActsOn s (.banked .fixed 35 1023) .writeF .writeR (.writeR (.banked .fixed 35 1023)) ∧
      refCell s.cfg (.banked .fixed 35 1023) = some (.fixed, 35, 1023)) ∧
    ActsOn s .deadBank .writeF .writeR (.writeR .deadBank) ∧
    (ActsOn s (.direct 1) .writeF .writeR (.writeF 1) ∧ refReg s.cfg (.direct 1) = some .l ∧
      ∃ t, writeRule s s.port.din.toNat .l = .ok t) ∧
    (ActsOn s (.direct 3) .writeF .writeR (.writeF 3) ∧ refReg s.cfg (.direct 3) = some .ebank ∧
      writeRule s s.port.din.toNat .ebank = .error 2#3) :=
  ⟨by decide, ⟨.inr ⟨0o24, by decide, by decide, rfl⟩, by decide⟩, ⟨.inl rfl, by decide⟩, .inl rfl,
    ⟨.inr ⟨1, by decide, by decide, rfl⟩, by decide, _, rfl⟩, .inr ⟨3, by decide, by decide, rfl⟩, by decide, by decide⟩

theorem witness_SixteenBitDataIsRefused : 2 ^ 15 ≤ (small 0 0 0o100000).port.din.toNat ∧ 0o7777 < 2 ^ 12 := by decide

/-- The references that name nothing: the hole of the register range, both sides of the switched range, beyond the
space, beyond each store and beyond a bank. -/
theorem witness_UnusableReferenceIsRefused :
    (operandOf busy (.direct 7) = none ∧ (∃ op ∈ bothFormats, ActsOn busy (.direct 7) op.1 op.2 (.suF 7))) ∧
    operandOf busy (.direct 0o1400) = none ∧ operandOf busy (.direct 0o3777) = none ∧
    operandOf busy (.direct 0o10000) = none ∧ operandOf busy (.banked .erasable 8 0) = none ∧
    operandOf busy (.banked .fixed 36 0) = none ∧
    (operandOf busy (.banked .erasable 7 256) = none ∧
      ∃ op ∈ bothFormats, ActsOn busy (.banked .erasable 7 256) op.1 op.2 (.incrR (.banked .erasable 7 256))) ∧
    busy.port.din.toNat < 2 ^ 15 :=
  ⟨⟨by decide, _, su_mem, .inr ⟨7, by decide, by decide, rfl⟩⟩, by decide, by decide, by decide, by decide, by decide,
    ⟨by decide, _, incr_mem, .inl rfl⟩, by decide⟩

/-- A word written through the direct address and read back through the switched field. -/
theorem witness_ReadReturnsTheWrittenWord :
    refCell busy.cfg (.direct 0o1377) = some (.erasable, 2, 255) ∧
    refCell busy.cfg (.banked .erasable 2 255) = some (.erasable, 2, 255) ∧ busy.port.din.toNat < 2 ^ 15 ∧
    ActsOn busy (.direct 0o1377) .writeF .writeR (.writeF 0o1377) ∧
    ∃ t, exec (.writeF 0o1377) busy = .next t ∧ ActsOn t (.banked .erasable 2 255) .readF .readR (.readF 0o1777) :=
  ⟨by decide, by decide, by decide, .inr ⟨0o1377, by decide, by decide, rfl⟩, _, exec_afterExec _ _,
    .inr ⟨0o1777, by decide, by decide, rfl⟩⟩

theorem witness_WriteToRegisterAddressIsRegwrite :
    0 < busy.cfg.regLimit ∧ 0o23 < busy.cfg.regLimit ∧ 0o23 < 0o1400 ∧ busy.port.din.toNat < 2 ^ 15 := by decide

theorem witness_RegreadAnswersTheRawValue :
    regAtAddress busy.cfg 0 = some .a ∧ regAtAddress busy.cfg 6 = some .bbank ∧ regAtAddress busy.cfg 0o23 = some .edop ∧
    regAtAddress busy.cfg 7 = none ∧ regAtAddress busy.cfg 0o24 = none := by decide

/-- A cell that takes `0o7777`, the same cell one above, the two shape checks, and a number that names no cell. -/
theorem witness_RegwriteFollowsTheCellsRule :
    (regAtAddress busy.cfg 5 = some .z ∧ (∃ t, writeRule (small 0 0 0o7777) 0o7777 .z = .ok t) ∧
      writeRule (small 0 0 0o10000) 0o10000 .z = .error 1#3) ∧
    ((∃ t, writeRule busy 0o3400 .ebank = .ok t) ∧ writeRule busy 0o4000 .ebank = .error 2#3) ∧
    ((∃ t, writeRule busy 0o76007 .bbank = .ok t) ∧ writeRule busy 0o76017 .bbank = .error 2#3 ∧
      writeRule busy 0o100000 .bbank = .error 1#3) ∧
    regAtAddress busy.cfg 0o24 = none :=
  ⟨⟨by decide, ⟨_, rfl⟩, by decide⟩, ⟨⟨_, rfl⟩, by decide⟩, ⟨⟨_, rfl⟩, by decide, by decide⟩, by decide⟩

theorem witness_RegwriteOfSixteenBitCells :
    regAtAddress busy.cfg 0 = some .a ∧ regAtAddress busy.cfg 2 = some .q ∧ regAtAddress busy.cfg 1 = some .l := by
  decide

theorem witness_PlainCellsHoldTheWrittenWord : 0o77777 < 2 ^ 15 ∧ 2 ^ 15 ≤ 0o100000 := by decide

theorem witness_EditingCellsHoldTheTransform : 0o77777 < 2 ^ 15 ∧ 2 ^ 15 ≤ 0o100000 := by decide

theorem witness_ZHoldsTwelveBits : 0o7777 < 2 ^ 12 ∧ 2 ^ 12 ≤ 0o10000 := by decide

theorem witness_BbankIsComputedFromItsSources : EbankInShape { busy with ebank := 0o3400 } := by
  unfold EbankInShape
  decide

theorem witness_ChecksAcceptExactlyWhatFits :
    0o77777 < 2 ^ 15 ∧ 2 ^ 15 ≤ 0o100000 ∧ 0o66003 &&& 0o76007 = 0o66003 ∧
    (0o00010 : Nat).testBit 3 = true ∧ (0o76007 : Nat).testBit 3 = false := by decide

theorem witness_SignExtendCopiesTheSign : 2 ^ 15 ≤ 0o100000 := by decide

theorem witness_RotationsAreInverse : 13 < 14 ∧ 2 ^ 15 ≤ 0o100000 := by decide

/-- The largest sum in range, a sum of zero, and the words at the ends of the two signs. -/
theorem witness_AdderReturnsTheTrueSum :
    (0o37777#15).toNat < 2 ^ 14 ∧ 2 ^ 14 ≤ (0o40000#15).toNat ∧
    (value 0o37776#15 + value 1#15).natAbs ≤ 2 ^ 14 - 1 ∧ value 1#15 + value 0o77776#15 = 0 ∧
    value 1#16 + value 0o177776#16 = 0 := by decide

theorem witness_IncrAugDimByValue :
    isZero 1#15 = false ∧ isZero 0o100000#16 = false ∧ value 0o37776#15 < 2 ^ 14 - 1 ∧
    (value 0o40001#15).natAbs < 2 ^ 14 - 1 ∧ (value 0o100001#16).natAbs < 2 ^ 15 - 1 := by decide

/-- A wide operand (Q, in format F) and narrow ones (an erasable cell, FBANK, a dead bank). -/
theorem witness_AdAddsTheOperandIntoA :
    (ActsOn busy (.direct 2) .adF .adR (.adF 2) ∧ operandOf busy (.direct 2) = some (.wide 0o100001)) ∧
    (ActsOn busy (.direct 0o100) .adF .adR (.adR (.direct 0o100)) ∧
      operandOf busy (.direct 0o100) = some (.narrow 0o77776)) ∧
    (ActsOn busy (.direct 4) .adF .adR (.adF 4) ∧ operandOf busy (.direct 4) = some (.narrow 0o34)) ∧
    (ActsOn busy .deadBank .adF .adR (.adF 0o2000) ∧ operandOf busy .deadBank = some (.narrow 0)) :=
  ⟨⟨.inr ⟨2, by decide, by decide, rfl⟩, by decide⟩, ⟨.inl rfl, by decide⟩,
    ⟨.inr ⟨4, by decide, by decide, rfl⟩, by decide⟩, .inr ⟨0o2000, by decide, by decide, rfl⟩, by decide⟩

theorem witness_SuAddsTheInverseIntoA :
    (ActsOn busy (.direct 0) .suF .suR (.suR (.direct 0)) ∧ operandOf busy (.direct 0) = some (.wide 0o177776)) ∧
    (ActsOn busy (.direct 0o4017) .suF .suR (.suF 0o4017) ∧
      operandOf busy (.direct 0o4017) = some (.narrow 0o30001)) :=
  ⟨⟨.inl rfl, by decide⟩, .inr ⟨0o4017, by decide, by decide, rfl⟩, by decide⟩

/-- −1 in A and −1 in the cell, in both operations. -/
theorem witness_AdAndSuComputeTheTrueResult :
    operandOf busy (.direct 0o100) = some (.narrow 0o77776) ∧ busy.a = signExtend 0o77776 ∧
    ActsOn busy (.direct 0o100) .adF .adR (.adF 0o100) ∧ ActsOn busy (.direct 0o100) .suF .suR (.suF 0o100) :=
  ⟨by decide, by decide, .inr ⟨0o100, by decide, by decide, rfl⟩, .inr ⟨0o100, by decide, by decide, rfl⟩⟩

theorem witness_DoubleIsAdOfA : regAtAddress busy.cfg 0 = some .a := by decide

/-- Each of the three operations on a wide register, DIM on one that is not a zero. -/
theorem witness_IncrAugDimOfWideRegisters :
    (Modifies busy (.direct 0) (.incrF 0) incrWord ∧ refReg busy.cfg (.direct 0) = some .a) ∧
    (Modifies busy (.direct 2) (.augR (.direct 2)) augWord ∧ refReg busy.cfg (.direct 2) = some .q) ∧
    Modifies busy (.direct 2) (.dimF 2) dimWord :=
  ⟨⟨.inl ⟨.inr ⟨0, by decide, by decide, rfl⟩, rfl⟩, by decide⟩, ⟨.inr (.inl ⟨.inl rfl, rfl⟩), by decide⟩,
    .inr (.inr ⟨.inr ⟨2, by decide, by decide, rfl⟩, rfl, .wide 0o100001, by decide, by decide⟩)⟩

theorem witness_IncrAugDimOfErasableCells :
    refCell busy.cfg (.direct 0o100) = some (.erasable, 0, 0o100) ∧
    Modifies busy (.direct 0o100) (.incrF 0o100) incrWord ∧ Modifies busy (.direct 0o100) (.augF 0o100) augWord ∧
    Modifies busy (.direct 0o100) (.dimR (.direct 0o100)) dimWord :=
  ⟨by decide, .inl ⟨.inr ⟨0o100, by decide, by decide, rfl⟩, rfl⟩,
    .inr (.inl ⟨.inr ⟨0o100, by decide, by decide, rfl⟩, rfl⟩),
    .inr (.inr ⟨.inl rfl, rfl, .narrow 0o77776, by decide, by decide⟩)⟩

/-- A fixed cell, DIM included, and a dead bank, on which DIM reads a zero. -/
theorem witness_IncrAugDimOfReadOnlyTargets :
    refCell busy.cfg (.banked .fixed 35 1023) = some (.fixed, 35, 1023) ∧
    Modifies busy (.banked .fixed 35 1023) (.dimR (.banked .fixed 35 1023)) dimWord ∧
    Modifies busy .deadBank (.augF 0o2000) augWord ∧ Modifies busy .deadBank (.incrR .deadBank) incrWord :=
  ⟨by decide, .inr (.inr ⟨.inl rfl, rfl, .narrow 5, by decide, by decide⟩),
    .inr (.inl ⟨.inr ⟨0o2000, by decide, by decide, rfl⟩, rfl⟩), .inl ⟨.inl rfl, rfl⟩⟩

/-- INCR of L, which takes the result, and of EBANK, which refuses it. -/
theorem witness_IncrAugDimOfNarrowRegisters :
    (Modifies busy (.direct 1) (.incrF 1) incrWord ∧ refReg busy.cfg (.direct 1) = some .l ∧
      ∃ t, writeRule busy (incrWord 15 (BitVec.ofNat 15 (cellValue busy .l))).toNat .l = .ok t) ∧
    (Modifies busy (.direct 3) (.incrF 3) incrWord ∧ refReg busy.cfg (.direct 3) = some .ebank ∧
      writeRule busy (incrWord 15 (BitVec.ofNat 15 (cellValue busy .ebank))).toNat .ebank = .error 2#3) :=
  ⟨⟨.inl ⟨.inr ⟨1, by decide, by decide, rfl⟩, rfl⟩, by decide, _, rfl⟩,
    .inl ⟨.inr ⟨3, by decide, by decide, rfl⟩, rfl⟩, by decide, by decide⟩

/-- −0 in a narrow register, +0 in a cell nothing has written, +0 of a dead bank. -/
theorem witness_DimOfZeroWritesNothing :
    (ActsOn busy (.direct 1) .dimF .dimR (.dimF 1) ∧ operandOf busy (.direct 1) = some (.narrow 0o77777) ∧
      (Operand.narrow 0o77777).isZero = true) ∧
    (operandOf busy (.direct 0o200) = some (.narrow 0) ∧ (Operand.narrow 0).isZero = true) ∧
    operandOf busy .deadBank = some (.narrow 0) :=
  ⟨⟨.inr ⟨1, by decide, by decide, rfl⟩, by decide, by decide⟩, by decide, by decide⟩

theorem witness_BankreadAnswersTheCell :
    (7 < numBanks .erasable ∧ 255 < bankSize .erasable ∧ 35 < numBanks .fixed ∧ 1023 < bankSize .fixed) ∧
    (numBanks .erasable ≤ 8 ∧ numBanks .fixed ≤ 36) ∧ bankSize .erasable ≤ 256 ∧ bankSize .fixed ≤ 1024 := by decide

theorem witness_BankwriteStoresTheWord :
    (small 0 0 0o77777).port.din.toNat < 2 ^ 15 ∧ (7 < numBanks .erasable ∧ 255 < bankSize .erasable) ∧
    (35 < numBanks .fixed ∧ 1023 < bankSize .fixed) ∧ numBanks .fixed ≤ 36 ∧ bankSize .erasable ≤ 256 := by decide

end Sys2Proof.Tests
end

namespace Sys2Proof.Machine

/-! ### The register cells (10_state.md): what a raw read and a raw write of one cell do

The write rules come from `writeRule` through `writeReg_of_ok`; the refusals from the width check with which every write
begins. -/

/-- A width check that the value passes. -/
theorem fits_of_lt {v n : Nat} (t : State) (h : v < 2 ^ n) : fits v n t = .ok t := if_pos h

/-- A failed width check ends the operation, whatever would have followed it (R161, R166). -/
theorem asWord_bind_of_le {α : Type} {n v : Nat} (h : 2 ^ n ≤ v) (f : BitVec n → Except Err α) :
    (asWord n v >>= f) = .error (.valueTooWide v n) := by
  rw [asWord_of_le h, bind_error]

/-- The shape of EBANK (R18) in arithmetic. -/
theorem ebankInShape_iff (s : State) :
    EbankInShape s ↔ s.ebank.toNat % 256 = 0 ∧ s.ebank.toNat < 8 * 256 := by
  rw [EbankInShape, ← BitVec.toNat_inj, BitVec.toNat_and]
  exact land_ebankMask_iff _

/-- R34 on numbers: the fields that FBANK and EBANK drive do not overlap, so the sum is the spec's `|`. -/
theorem bbank_sum_eq_or (s : State) :
    s.fbank.toNat * 1024 + s.ebank.toNat / 256 = (s.fbank.toNat <<< 10) ||| (s.ebank.toNat >>> 8) := by
  have hlow : s.ebank.toNat >>> 8 < 2 ^ 10 := by
    have he := s.ebank.isLt
    rw [Nat.shiftRight_eq_div_pow]
    omega
  rw [← Nat.shiftLeft_add_eq_or_of_lt hlow, Nat.shiftLeft_eq, Nat.shiftRight_eq_div_pow]

/-- Settles O38: the raw read is the sum of two fields (`readReg_toNat`), which do not overlap; with EBANK in its shape
the lower one is a bank number below 8, and nothing reaches bits 10 to 4. -/
theorem bbankIsComputedFromItsSources : Obligations.BbankIsComputedFromItsSources := by
  intro s
  have hread : (readReg s .bbank).toNat = s.fbank.toNat * 1024 + s.ebank.toNat / 256 := readReg_toNat s .bbank
  refine ⟨hread.trans (bbank_sum_eq_or s), fun hshape => ?_⟩
  obtain ⟨-, hbank⟩ := (ebankInShape_iff s).mp hshape
  rw [hread]
  omega

/-- Settles O35: each plain cell has the write rule `fits v 15`. -/
theorem plainCellsHoldTheWrittenWord : Obligations.PlainCellsHoldTheWrittenWord := by
  intro s v
  constructor
  · intro hv
    refine ⟨?_, ?_, ?_, ?_, ?_, ?_, ?_, ?_⟩ <;> exact writeReg_of_ok (fits_of_lt _ hv)
  · intro hv r hr
    simp only [List.mem_cons, List.not_mem_nil, or_false] at hr
    obtain rfl | rfl | rfl | rfl | rfl | rfl | rfl | rfl := hr <;> exact asWord_bind_of_le hv _

/-- Settles O37: Z has the write rule `fits v 12`. -/
theorem zHoldsTwelveBits : Obligations.ZHoldsTwelveBits := fun _ _ =>
  ⟨fun hv => writeReg_of_ok (fits_of_lt _ hv), fun hv => asWord_bind_of_le hv _⟩

end Sys2Proof.Machine

namespace Sys2Proof.Machine

/-! ### The pure functions (40_alu_primitives.md): the two checks, sign extension and the adder

R108 reads a word as a number. `value_eq` says once, at every width, what that number is: the word itself, or the word
less `2^n - 1`. Every claim about the adder is then linear arithmetic in the two words and `2^n`. -/

/-! #### The shape check -/

/-- The mask test of R101, bit by bit. -/
theorem land_eq_self_iff (v m : Nat) : v &&& m = v ↔ ∀ k, v.testBit k = true → m.testBit k = true := by
  constructor
  · intro h k hk
    rw [← h, Nat.testBit_and, Bool.and_eq_true] at hk
    exact hk.2
  · intro h
    refine Nat.eq_of_testBit_eq fun k => ?_
    rw [Nat.testBit_and, Bool.and_eq_left_iff_imp]
    exact h k

/-- Settles O39: the two mask tests are `land_mask_eq_iff` and `land_eq_self_iff`, and each check is its mask test. -/
theorem checksAcceptExactlyWhatFits : Obligations.ChecksAcceptExactlyWhatFits := by
  intro v n
  refine ⟨land_mask_eq_iff v n, fun h => ?_, fun h => ?_, land_eq_self_iff v n,
    fun h => assertShape_ok ((land_eq_self_iff v n).mpr h), fun ⟨k, hv, hn⟩ => assertShape_error fun h => ?_⟩
  · rw [assertWidth_eq, if_pos h]
  · rw [assertWidth_eq, if_neg (Nat.not_lt.mpr h)]
  · have hset := (land_eq_self_iff v n).mp h k hv
    rw [hn] at hset
    cases hset

/-! #### What a word denotes -/

/-- R108 as one subtraction: inverting a word takes it from `2^n - 1`. -/
theorem value_eq {n : Nat} (v : BitVec n) :
    value v = if 2 ^ n ≤ 2 * v.toNat then (v.toNat : Int) - (2 ^ n - 1 : Nat) else v.toNat := by
  have hv := v.isLt
  simp only [value, authoritativeSign_iff, notWord_toNat]
  split <;> omega

/-- The range of R108 is symmetric: one's complement has no number without its negative. -/
theorem natAbs_value_le {n : Nat} (hn : 0 < n) (v : BitVec n) : (value v).natAbs ≤ 2 ^ (n - 1) - 1 := by
  have hv := v.isLt
  have hhalf : 2 ^ n = 2 * 2 ^ (n - 1) := (mul_pow_sub_one hn.ne' 2).symm
  rw [value_eq]
  split <;> omega

theorem toNat_eq_zero_iff {n : Nat} (v : BitVec n) : v.toNat = 0 ↔ v = 0#n := by
  rw [← BitVec.toNat_inj, BitVec.toNat_ofNat, Nat.zero_mod]

theorem toNat_eq_max_iff {n : Nat} (v : BitVec n) : v.toNat = 2 ^ n - 1 ↔ v = BitVec.allOnes n := by
  rw [← BitVec.toNat_inj, BitVec.toNat_allOnes]

/-- Zero has two forms (R6, R108). -/
theorem value_eq_zero_iff {n : Nat} (v : BitVec n) : value v = 0 ↔ v = 0#n ∨ v = BitVec.allOnes n := by
  have hv := v.isLt
  rw [← toNat_eq_zero_iff, ← toNat_eq_max_iff, value_eq]
  split <;> omega

/-! #### Sign extension -/

/-- The bit test for the sign and the comparison with half the range agree, so the sign survives. -/
theorem authoritativeSign_signExtend (w : Word) : authoritativeSign (signExtend w) = authoritativeSign w := by
  rw [Bool.eq_iff_iff, authoritativeSign_iff, authoritativeSign_iff, signExtend_toNat]
  have hw := w.isLt
  split <;> omega

theorem signExtend_setWidth (w : Word) : (signExtend w).setWidth 15 = w := by
  have hw := w.isLt
  rw [← BitVec.toNat_inj, BitVec.toNat_setWidth, signExtend_toNat]
  split <;> omega

/-- A negative word moves up by `2^15`, and so does what its value is counted from: `2^16 - 1` for `2^15 - 1`. -/
@[simp] theorem value_signExtend (w : Word) : value (signExtend w) = value w := by
  have hw := w.isLt
  rw [value_eq, value_eq, signExtend_toNat]
  by_cases h : w.toNat < 16384
  · rw [if_pos h, if_neg (by omega), if_neg (by omega)]
  · rw [if_neg h, if_pos (by omega), if_pos (by omega)]
    omega

/-- The formula of R102 on numbers: the shift stays within 16 bits. -/
theorem signExtend_toNat_eq_or (w : Word) :
    (signExtend w).toNat = w.toNat ||| ((w.toNat &&& 0o40000) <<< 1) := by
  have hw : w.toNat < 2 ^ 16 := by omega
  have hsign : (w.toNat &&& 0o40000) <<< 1 < 2 ^ 16 := by
    have hle : w.toNat &&& 0o40000 ≤ 0o40000 := Nat.and_le_right
    omega
  simp only [signExtend, BitVec.toNat_or, BitVec.toNat_shiftLeft, BitVec.toNat_and, BitVec.toNat_setWidth,
    BitVec.toNat_ofNat]
  rw [Nat.mod_eq_of_lt hw, Nat.mod_eq_of_lt (by decide : 0o40000 < 2 ^ 16), Nat.mod_eq_of_lt hsign]

/-- Settles O40: bits 16 and 15 are the signs at the two widths, which `signExtend` keeps. -/
theorem signExtendCopiesTheSign : Obligations.SignExtendCopiesTheSign := by
  refine ⟨fun w => ⟨signExtend_toNat_eq_or w, ?_, signExtend_setWidth w, value_signExtend w⟩, fun v => asWord_of_le⟩
  have hsign := authoritativeSign_signExtend w
  rwa [authoritativeSign, authoritativeSign, BitVec.msb_eq_getLsbD_last, BitVec.msb_eq_getLsbD_last] at hsign

/-! #### The adder -/

/-- In range the adder is exact: what the carry adds back is what the negative operands were counted from. -/
theorem value_eacAdd {n : Nat} (hn : 0 < n) {x y : BitVec n}
    (h : (value x + value y).natAbs ≤ 2 ^ (n - 1) - 1) : value (eacAdd x y) = value x + value y := by
  have hx := x.isLt
  have hy := y.isLt
  have hhalf : 2 ^ n = 2 * 2 ^ (n - 1) := (mul_pow_sub_one hn.ne' 2).symm
  rw [value_eq x, value_eq y] at h ⊢
  rw [value_eq, eacAdd_toNat]
  split_ifs at h ⊢ <;> omega

/-- A word and its number agree modulo `2^n - 1`, the modulus of one's complement. -/
theorem value_modEq {n : Nat} (v : BitVec n) : value v ≡ v.toNat [ZMOD 2 ^ n - 1] := by
  rw [value_eq]
  split
  · rw [Nat.cast_pred (Nat.two_pow_pos n), Nat.cast_pow, Nat.cast_ofNat]
    exact Int.sub_modulus_modEq_iff.mpr rfl
  · rfl

/-- Dropping the carry and adding it back takes `2^n - 1` from the sum. -/
theorem eacAdd_modEq {n : Nat} (x y : BitVec n) :
    ((eacAdd x y).toNat : Int) ≡ x.toNat + y.toNat [ZMOD 2 ^ n - 1] := by
  rw [eacAdd_toNat]
  split
  next hcarry =>
    refine Int.modEq_iff_dvd.mpr ⟨1, ?_⟩
    push_cast [hcarry]
    ring
  next => rw [Nat.cast_add]

/-- Out of range the sum wraps: the adder keeps it modulo `2^n - 1`. -/
theorem value_eacAdd_wraps {n : Nat} (x y : BitVec n) :
    ∃ k : Int, value (eacAdd x y) = value x + value y + k * (2 ^ n - 1) := by
  have hmod : value x + value y ≡ value (eacAdd x y) [ZMOD 2 ^ n - 1] :=
    calc value x + value y
      _ ≡ x.toNat + y.toNat [ZMOD 2 ^ n - 1] := (value_modEq x).add (value_modEq y)
      _ ≡ (eacAdd x y).toNat [ZMOD 2 ^ n - 1] := (eacAdd_modEq x y).symm
      _ ≡ value (eacAdd x y) [ZMOD 2 ^ n - 1] := (value_modEq _).symm
  obtain ⟨k, hk⟩ := hmod.dvd
  exact ⟨k, by linarith⟩

/-- Opposite words add up to `2^n - 1` without a carry: a sum of zero is −0, but for two +0. -/
theorem eacAdd_of_value_add_eq_zero {n : Nat} {x y : BitVec n} (h : value x + value y = 0) :
    eacAdd x y = if x = 0#n ∧ y = 0#n then 0#n else BitVec.allOnes n := by
  have hx := x.isLt
  have hy := y.isLt
  rw [value_eq x, value_eq y] at h
  split
  next hzero =>
    rw [← toNat_eq_zero_iff, ← toNat_eq_zero_iff] at hzero
    rw [← toNat_eq_zero_iff, eacAdd_toNat]
    split <;> omega
  next hzero =>
    rw [← toNat_eq_zero_iff, ← toNat_eq_zero_iff] at hzero
    rw [← toNat_eq_max_iff, eacAdd_toNat]
    split_ifs at h ⊢ <;> omega

/-- R109 as R108 reads it: the signature marks the numbers that 15 bits do not hold. -/
theorem ovf_iff_value (v : Acc) : ovf v = true ↔ 16383 < (value v).natAbs := by
  have hv := v.isLt
  have hovf : ovf v = true ↔ v.toNat / 2 ^ 15 % 2 ≠ v.toNat / 2 ^ 14 % 2 := by
    rw [ovf, overflowBit, nominalSign, BitVec.getLsbD, BitVec.getLsbD, Nat.testBit_eq_decide_div_mod_eq,
      Nat.testBit_eq_decide_div_mod_eq, bne_iff_ne, ne_eq, decide_eq_decide]
    omega
  rw [hovf, value_eq]
  split <;> omega

/-- Sign extension leaves room for one addition: two 15-bit numbers add up within 16 bits. -/
theorem value_eacAdd_signExtend (u w : Word) :
    value (eacAdd (signExtend u) (signExtend w)) = value u + value w := by
  have hu := natAbs_value_le (by decide) u
  have hw := natAbs_value_le (by decide) w
  have hroom : (value (signExtend u) + value (signExtend w)).natAbs ≤ 2 ^ (16 - 1) - 1 := by
    rw [value_signExtend, value_signExtend]
    omega
  rw [value_eacAdd (by decide) hroom, value_signExtend, value_signExtend]

/-- Settles O43: at one width, what a word denotes and the three laws of the adder; between the two widths,
`value_eacAdd_signExtend`, on whose sum `ovf_iff_value` reads the signature. -/
theorem adderReturnsTheTrueSum : Obligations.AdderReturnsTheTrueSum := by
  refine ⟨fun n hn x y => ?_, fun u w => ?_⟩
  · have hpos : 0 < n := by omega
    have hhalf : 2 ^ n = 2 * 2 ^ (n - 1) := (mul_pow_sub_one hpos.ne' 2).symm
    refine ⟨fun h => ?_, fun h => ?_, value_eacAdd hpos, eacAdd_of_value_add_eq_zero, value_eacAdd_wraps x y⟩
    · rw [value_eq, if_neg (by omega)]
    · rw [value_eq, if_pos (by omega)]
      have hx := x.isLt
      omega
  · refine ⟨value_eacAdd_signExtend u w, ?_, natAbs_value_le (by decide) w, value_eq_zero_iff w⟩
    rw [ovf_iff_value, value_eacAdd_signExtend]

end Sys2Proof.Machine

namespace Sys2Proof

/-! ### The encoding (30_encoding.md): references and command words as fields

A word is its fields side by side, and each field is a number: the decoder reads what the encoder wrote, and a word
that decodes is put together again from the fields it was read by. -/

theorem ofNat_toNat_self {n : Nat} (v : BitVec n) : BitVec.ofNat n v.toNat = v := by
  rw [BitVec.ofNat_toNat, BitVec.setWidth_eq]

theorem eq_ofNat_of_toNat_eq {n m : Nat} {v : BitVec n} (h : v.toNat = m) : v = BitVec.ofNat n m := by
  rw [← h, ofNat_toNat_self]

/-! #### Packed references -/

theorem Ref.wf_direct_iff {a : Nat} : (Ref.direct a).wf = true ↔ a < 2 ^ 18 := decide_eq_true_iff

theorem Ref.wf_banked_iff {t : Store} {b o : Nat} : (Ref.banked t b o).wf = true ↔ b < 2 ^ 7 ∧ o < 2 ^ 10 := by
  simp [Ref.wf, bankedWf]

/-- A packed reference is its tag and the 18 bits below it (R81). -/
theorem packedRef_eq_append (p : PackedRef) : p.extractLsb' 18 2 ++ p.extractLsb' 0 18 = p :=
  (BitVec.extractLsb'_append_extractLsb'_eq_extractLsb' rfl).trans BitVec.extractLsb'_eq_self

/-- The 18 bits of a Banked reference are its store bit, bank and offset (R83). -/
theorem bankedBits_eq_append (p : PackedRef) :
    p.extractLsb' 17 1 ++ (p.extractLsb' 10 7 ++ p.extractLsb' 0 10) = p.extractLsb' 0 18 := by
  have hlow : p.extractLsb' 10 7 ++ p.extractLsb' 0 10 = p.extractLsb' 0 17 :=
    BitVec.extractLsb'_append_extractLsb'_eq_extractLsb' rfl
  rw [hlow]
  exact BitVec.extractLsb'_append_extractLsb'_eq_extractLsb' rfl

/-- The tag as a number (R81). -/
theorem tag_toNat (p : PackedRef) : (p.extractLsb' 18 2).toNat = p.toNat / 2 ^ 18 := by
  rw [BitVec.extractLsb'_toNat, Nat.shiftRight_eq_div_pow]
  omega

/-- The bits below the tag are all 0 (R84). -/
theorem lowBits_eq_zero_iff (p : PackedRef) : p.extractLsb' 0 18 = 0#18 ↔ p.toNat % 2 ^ 18 = 0 := by
  rw [← BitVec.toNat_inj, BitVec.extractLsb'_toNat, Nat.shiftRight_zero]
  rfl

theorem unpack_pack {ref : Ref} (h : ref.wf = true) : unpack (pack ref) = some ref := by
  cases ref with
  | direct a =>
    have ha := Ref.wf_direct_iff.mp h
    rw [unpack, pack_direct_tag, pack_direct_address, Machine.toNat_ofNat_of_lt ha]
    rfl
  | banked t b o =>
    obtain ⟨hb, ho⟩ := Ref.wf_banked_iff.mp h
    rw [unpack, pack_banked_tag, pack_banked_store, pack_banked_bank, pack_banked_offset,
      Machine.toNat_ofNat_of_lt hb, Machine.toNat_ofNat_of_lt ho, storeOfBit_storeBit]
    rfl
  | deadBank => decide

/-- A reference is unpacked from its own packing alone. -/
theorem wf_and_pack_of_unpack {p : PackedRef} {ref : Ref} (h : unpack p = some ref) :
    ref.wf = true ∧ pack ref = p := by
  have hp := packedRef_eq_append p
  unfold unpack at h
  split at h
  next hn =>
    cases h
    refine ⟨Ref.wf_direct_iff.mpr (BitVec.isLt _), ?_⟩
    rwa [eq_ofNat_of_toNat_eq hn, ← ofNat_toNat_self (p.extractLsb' 0 18)] at hp
  next hn =>
    cases h
    refine ⟨Ref.wf_banked_iff.mpr ⟨BitVec.isLt _, BitVec.isLt _⟩, ?_⟩
    rw [pack, storeBit_storeOfBit, ofNat_toNat_self, ofNat_toNat_self, bankedBits_eq_append]
    rwa [eq_ofNat_of_toNat_eq hn] at hp
  next hn =>
    split at h
    next hzero =>
      cases h
      rw [eq_ofNat_of_toNat_eq hn, hzero] at hp
      exact ⟨rfl, hp⟩
    next => cases h
  next => cases h

/-- The reserved packed values (R84). -/
theorem unpack_eq_none_iff (p : PackedRef) :
    unpack p = none ↔ p.toNat / 2 ^ 18 = 3 ∨ (p.toNat / 2 ^ 18 = 2 ∧ p.toNat % 2 ^ 18 ≠ 0) := by
  have hp := p.isLt
  unfold unpack
  simp only [tag_toNat, lowBits_eq_zero_iff]
  split
  next => simp only [reduceCtorEq, false_iff]; omega
  next => simp only [reduceCtorEq, false_iff]; omega
  next => split <;> simp only [reduceCtorEq, false_iff, true_iff] <;> omega
  next => simp only [imp_false] at *; simp only [true_iff]; omega

/-- Tag `01` and no other unpacks to a Banked reference (R83). -/
theorem unpack_eq_banked_iff (p : PackedRef) :
    (∃ t b o, unpack p = some (.banked t b o)) ↔ p.toNat / 2 ^ 18 = 1 := by
  unfold unpack
  rw [tag_toNat]
  split
  next => simp; omega
  next htag => exact iff_of_true ⟨_, _, _, rfl⟩ htag
  next => split <;> simp <;> omega
  next hne _ => exact iff_of_false (by simp) hne

/-- Settles O6. -/
theorem packAndUnpackAreInverse : Obligations.PackAndUnpackAreInverse :=
  ⟨fun _ => unpack_pack, fun _ _ => wf_and_pack_of_unpack, unpack_eq_none_iff⟩

/-! #### The operations of format R -/

theorem decodeRefOp_ok_iff {p : PackedRef} {mk : Ref → Instr} {i : Instr} :
    decodeRefOp p mk = .ok i ↔ ∃ ref, unpack p = some ref ∧ mk ref = i := by
  unfold decodeRefOp
  cases unpack p <;> simp

theorem decodeRefOp_error_iff {p : PackedRef} {mk : Ref → Instr} :
    (∃ r, decodeRefOp p mk = .error r) ↔ unpack p = none := by
  unfold decodeRefOp
  cases unpack p <;> simp

theorem decodeBankOp_ok_iff {p : PackedRef} {mk : Store → Nat → Nat → Instr} {i : Instr} :
    decodeBankOp p mk = .ok i ↔ ∃ t b o, unpack p = some (.banked t b o) ∧ mk t b o = i := by
  unfold decodeBankOp
  cases unpack p with
  | none => simp
  | some ref => cases ref <;> simp

theorem decodeBankOp_error_iff {p : PackedRef} {mk : Store → Nat → Nat → Instr} :
    (∃ r, decodeBankOp p mk = .error r) ↔ ¬ ∃ t b o, unpack p = some (.banked t b o) := by
  unfold decodeBankOp
  cases unpack p with
  | none => simp
  | some ref => cases ref <;> simp

/-! #### Decoding what was encoded -/

theorem wordF_k_toNat (op : BitVec 4) {k : Nat} (h : k < 2 ^ 12) : ((wordF op k).extractLsb' 0 12).toNat = k := by
  rw [wordF_k, Machine.toNat_ofNat_of_lt h]

/-- Settles O1: by the instruction's row of the table; the decoder's operation code, field and reference are those the
encoder wrote. -/
theorem decodeOfEncode : Obligations.DecodeOfEncode := by
  intro i h
  cases i with
  | readF k | writeF k | deduce k | adF k | incrF k | augF k | dimF k | suF k | regread k | regwrite k =>
    show decodeF (wordF _ k) = _
    rw [decodeF, wordF_op, wordF_k_toNat _ (of_decide_eq_true h)]
    rfl
  | com | double => decide
  | setsb b => cases b <;> decide
  | readR ref | writeR ref | adR ref | incrR ref | augR ref | dimR ref | suR ref =>
    show decodeR (wordR _ ref) = _
    rw [decodeR, wordR_op, wordR_ref]
    exact decodeRefOp_ok_iff.mpr ⟨ref, unpack_pack h, rfl⟩
  | bankread t b o | bankwrite t b o =>
    show decodeR (wordR _ (.banked t b o)) = _
    rw [decodeR, wordR_op, wordR_ref]
    exact decodeBankOp_ok_iff.mpr ⟨t, b, o, unpack_pack h, rfl⟩

/-! #### Encoding what was decoded -/

/-- The 16 bits format F uses are its operation code and its field (R87). -/
theorem wordF_of_fields (w : CmdWord) {n : Nat} (hn : (w.extractLsb' 12 4).toNat = n) :
    wordF (BitVec.ofNat 4 n) (w.extractLsb' 0 12).toNat = 0#8 ++ w.extractLsb' 0 16 := by
  rw [wordF, ← eq_ofNat_of_toNat_eq hn, ofNat_toNat_self]
  exact congrArg (0#8 ++ ·) (BitVec.extractLsb'_append_extractLsb'_eq_extractLsb' rfl)

/-- A format R word is its operation code and its packed reference (R88). -/
theorem wordR_of_fields (w : CmdWord) {n : Nat} (hn : (w.extractLsb' 20 4).toNat = n) {ref : Ref}
    (hp : pack ref = w.extractLsb' 0 20) : wordR (BitVec.ofNat 4 n) ref = w := by
  rw [wordR, hp, ← eq_ofNat_of_toNat_eq hn]
  exact (BitVec.extractLsb'_append_extractLsb'_eq_extractLsb' rfl).trans BitVec.extractLsb'_eq_self

theorem encode_decodeF {w : CmdWord} {i : Instr} (h : decodeF w = .ok i) :
    i.wf = true ∧ encode i = (.field, 0#8 ++ w.extractLsb' 0 16) := by
  have hk : fieldWf (w.extractLsb' 0 12).toNat = true := decide_eq_true (BitVec.isLt _)
  unfold decodeF at h
  split at h
  case h_5 hn | h_10 hn =>
    dsimp only at h
    split at h
    next hzero =>
      cases h
      refine ⟨rfl, ?_⟩
      rw [← wordF_of_fields w hn, hzero]
      rfl
    next => cases h
  case h_15 hn =>
    dsimp only at h
    split at h
    next hlt =>
      cases h
      refine ⟨rfl, ?_⟩
      rw [← wordF_of_fields w hn]
      interval_cases (w.extractLsb' 0 12).toNat <;> rfl
    next => cases h
  case h_13 | h_14 | h_16 => cases h
  all_goals
    next hn =>
      cases h
      exact ⟨hk, congrArg (Format.field, ·) (wordF_of_fields w hn)⟩

theorem encode_decodeR {w : CmdWord} {i : Instr} (h : decodeR w = .ok i) :
    i.wf = true ∧ encode i = (.reference, w) := by
  unfold decodeR at h
  split at h
  case h_3 | h_5 | h_10 | h_11 | h_12 | h_15 | h_16 => cases h
  case h_13 hn | h_14 hn =>
    obtain ⟨t, b, o, hu, rfl⟩ := decodeBankOp_ok_iff.mp h
    obtain ⟨hwf, hpack⟩ := wf_and_pack_of_unpack hu
    exact ⟨hwf, congrArg (Format.reference, ·) (wordR_of_fields w hn hpack)⟩
  all_goals
    next hn =>
      obtain ⟨ref, hu, rfl⟩ := decodeRefOp_ok_iff.mp h
      obtain ⟨hwf, hpack⟩ := wf_and_pack_of_unpack hu
      exact ⟨hwf, congrArg (Format.reference, ·) (wordR_of_fields w hn hpack)⟩

/-- Settles O2. -/
theorem encodeOfDecode : Obligations.EncodeOfDecode := fun _ _ => ⟨encode_decodeR, encode_decodeF⟩

/-! #### The reserved encodings -/

theorem ite_error_iff {c : Prop} [Decidable c] {i : Instr} {e : Reserved} :
    (∃ r, (if c then Except.ok i else Except.error e) = .error r) ↔ ¬c := by
  split <;> simp [*]

theorem decodeF_error_iff (w : CmdWord) :
    (∃ r, decodeF w = .error r) ↔
      (w.toNat / 4096 % 16 = 15 ∨ w.toNat / 4096 % 16 = 12 ∨ w.toNat / 4096 % 16 = 13 ∨
        ((w.toNat / 4096 % 16 = 4 ∨ w.toNat / 4096 % 16 = 9) ∧ w.toNat % 4096 ≠ 0) ∨
        (w.toNat / 4096 % 16 = 14 ∧ 2 ≤ w.toNat % 4096)) := by
  have hlt : w.toNat / 4096 % 16 < 16 := Nat.mod_lt _ (by decide)
  have hop : (w.extractLsb' 12 4).toNat = w.toNat / 4096 % 16 := by
    rw [BitVec.extractLsb'_toNat, Nat.shiftRight_eq_div_pow]
  have hk : (w.extractLsb' 0 12).toNat = w.toNat % 4096 := by
    rw [BitVec.extractLsb'_toNat, Nat.shiftRight_zero]
  simp only [decodeF, hop, hk]
  generalize w.toNat / 4096 % 16 = op at hlt
  generalize w.toNat % 4096 = k
  split
  case h_5 | h_10 | h_15 => exact ite_error_iff.trans (by omega)
  case h_13 | h_14 => exact iff_of_true ⟨_, rfl⟩ (by omega)
  case h_16 =>
    simp only [imp_false] at *
    exact iff_of_true ⟨_, rfl⟩ (by omega)
  all_goals exact iff_of_false (by simp) (by omega)

theorem decodeR_error_iff (w : CmdWord) :
    (∃ r, decodeR w = .error r) ↔
      (w.toNat / 2 ^ 20 ∈ [15, 2, 4, 9, 10, 11, 14] ∨ w.toNat / 2 ^ 18 % 4 = 3 ∨
        (w.toNat / 2 ^ 18 % 4 = 2 ∧ w.toNat % 2 ^ 18 ≠ 0) ∨
        (w.toNat / 2 ^ 20 ∈ [12, 13] ∧ w.toNat / 2 ^ 18 % 4 ≠ 1)) := by
  have hlt : w.toNat / 2 ^ 20 < 16 := by omega
  have hop : (w.extractLsb' 20 4).toNat = w.toNat / 2 ^ 20 := by
    rw [BitVec.extractLsb'_toNat, Nat.shiftRight_eq_div_pow]
    omega
  have htag : (w.extractLsb' 0 20).toNat / 2 ^ 18 = w.toNat / 2 ^ 18 % 4 := by
    rw [BitVec.extractLsb'_toNat, Nat.shiftRight_zero]
    omega
  have hlow : (w.extractLsb' 0 20).toNat % 2 ^ 18 = w.toNat % 2 ^ 18 := by
    rw [BitVec.extractLsb'_toNat, Nat.shiftRight_zero]
    omega
  simp only [decodeR, hop]
  generalize w.toNat / 2 ^ 20 = op at hlt
  split
  case h_3 | h_5 | h_10 | h_11 | h_12 | h_15 => exact iff_of_true ⟨_, rfl⟩ (.inl (by decide))
  case h_16 =>
    simp only [imp_false] at *
    have h15 : op = 15 := by omega
    exact iff_of_true ⟨_, rfl⟩ (.inl (by rw [h15]; decide))
  case h_13 | h_14 =>
    refine decodeBankOp_error_iff.trans ((unpack_eq_banked_iff _).not.trans ?_)
    rw [htag]
    simp
    omega
  all_goals
    refine decodeRefOp_error_iff.trans ((unpack_eq_none_iff _).trans ?_)
    rw [htag, hlow]
    simp

/-- Settles O3. -/
theorem reservedEncodingsAreTheSevenClasses : Obligations.ReservedEncodingsAreTheSevenClasses := fun w =>
  ⟨decodeF_error_iff w, decodeR_error_iff w⟩

/-! #### Format F by its low 16 bits -/

/-- A field within the low 16 bits is a field of the low 16 bits. -/
theorem extractLsb'_of_low_eq {w w' : CmdWord} (h : w.extractLsb' 0 16 = w'.extractLsb' 0 16) {start len : Nat}
    (hlen : start + len ≤ 16) : w.extractLsb' start len = w'.extractLsb' start len := by
  have hfield (v : CmdWord) : (v.extractLsb' 0 16).extractLsb' start len = v.extractLsb' start len :=
    BitVec.extractLsb'_extractLsb'_of_le hlen
  rw [← hfield w, h, hfield w']

/-- Settles O5: the decoder reads the operation code and the field alone. -/
theorem formatFIgnoresTheHighBits : Obligations.FormatFIgnoresTheHighBits := by
  intro w w' h
  show decodeF w = decodeF w'
  rw [decodeF, decodeF, extractLsb'_of_low_eq h (by decide), extractLsb'_of_low_eq h (by decide)]

/-- Settles O4: twelve closed evaluations of the decoder. -/
theorem sampleWordsDecode : Obligations.SampleWordsDecode := by
  unfold Obligations.SampleWordsDecode
  decide

end Sys2Proof

namespace Sys2Proof.Machine

/-! ### What one instruction can do

`exec_completes` says it once for all 22 instructions: an operation that completes either answers a word or a reference
and stores nothing, or stores one thing (`Stores`) and answers nothing. The rules about the whole machine follow from
it by cases. -/

/-- `i` names the register cell `r`: by number, or by a reference it writes to (R124, R121, R144 to R146). -/
def NamesReg (s : State) (r : Reg) (i : Instr) : Prop :=
  (∃ n, i = .regwrite n ∧ regAtAddress s.cfg n = some r) ∨
    ∃ ref, refReg s.cfg ref = some r ∧
      (ActsOn s ref .writeF .writeR i ∨ ActsOn s ref .incrF .incrR i ∨ ActsOn s ref .augF .augR i ∨
        ActsOn s ref .dimF .dimR i)

/-- The one thing `i` can store when it runs in `s`, and the state after it, outputs aside. -/
inductive Stores (s : State) : Instr → State → Prop
  | nothing (i : Instr) : Stores s i s
  | accumulator (i : Instr) (y : Acc) : Stores s i { s with a := y }
  | register {i : Instr} {r : Reg} {v : Nat} {u : State} : NamesReg s r i → writeRule s v r = .ok u → Stores s i u
  | cell {i : Instr} {t : Store} {b o : Nat} (v : Word) : b < numBanks t ∧ o < bankSize t →
      t = .erasable ∨ i = .bankwrite t b o → Stores s i (setCell s t b o v)
  | flag (b : Bool) : Stores s (.setsb b) { s with sb := b }

/-- The commands that drive `dout` (R86). -/
def answersWord : Instr → Bool
  | .readF _ | .readR _ | .regread _ | .bankread _ _ _ => true
  | _ => false

/-- What `i` can answer when it completes in `s` (R86). -/
inductive Completes (s : State) : Instr → State → Prop
  | word {i : Instr} (d : BitVec 16) : answersWord i = true → Completes s i (answer s d 0#20)
  | reference (k : Nat) (r : PackedRef) : Completes s (.deduce k) (answer s 0#16 r)
  | stored {i : Instr} {u : State} : Stores s i u → Completes s i (completed u)

/-! #### The shared operations, when they complete -/

theorem deduceAddress_ok {s : State} {k : Nat} {ref : Ref} (h : deduceAddress s k = .ok ref) :
    k < 2 ^ 12 ∧ fieldRef s k = ref := by
  by_cases hk : k < 2 ^ 12
  · rw [deduceAddress_of_lt s hk] at h
    exact ⟨hk, Except.ok.inj h⟩
  · rw [deduceAddress_of_le s (Nat.not_lt.mp hk)] at h
    cases h

/-- A format F command whose field resolves acts on the reference it resolves to (R87). -/
theorem actsOn_field {s : State} {k : Nat} {ref : Ref} (mkF : Nat → Instr) (mkR : Ref → Instr)
    (h : deduceAddress s k = .ok ref) : ActsOn s ref mkF mkR (mkF k) := by
  obtain ⟨hk, href⟩ := deduceAddress_ok h
  exact .inr ⟨k, hk, href, rfl⟩

theorem usableReg_ok {cfg : Config} {a : Nat} {r : Reg} (h : usableReg cfg a = .ok r) :
    regAtAddress cfg a = some r := by
  rw [usableReg_eq] at h
  cases hr : regAtAddress cfg a with
  | some r' => rw [hr] at h; rw [Except.ok.inj h]
  | none => rw [hr] at h; cases h

/-- Everything a generic write can do when it completes: nothing, one erasable cell, or one register cell. -/
theorem writeWord_ok {s u : State} {ref : Ref} {v : Nat} (h : writeWord s ref v = .ok u) :
    u = s ∨
    (∃ b o, refCell s.cfg ref = some (.erasable, b, o) ∧ u = setCell s .erasable b o (BitVec.ofNat 15 v)) ∨
    ∃ r, refReg s.cfg ref = some r ∧ writeReg s r v = .ok u := by
  by_cases hv : v < 2 ^ 15
  case neg =>
    rw [writeWord_of_le (Nat.not_lt.mp hv)] at h
    cases h
  cases hr : refReg s.cfg ref with
  | some r =>
    rw [writeWord_of_reg hv hr] at h
    exact .inr (.inr ⟨r, rfl, h⟩)
  | none =>
    cases hc : refCell s.cfg ref with
    | some x =>
      obtain ⟨t, b, o⟩ := x
      cases t with
      | erasable =>
        rw [writeWord_of_erasable hv hc] at h
        exact .inr (.inl ⟨b, o, rfl, (Except.ok.inj h).symm⟩)
      | fixed =>
        rw [writeWord_of_fixed hv hc] at h
        exact .inl (Except.ok.inj h).symm
    | none =>
      by_cases hd : ref = .deadBank
      · rw [hd, writeWord_deadBank hv] at h
        exact .inl (Except.ok.inj h).symm
      · obtain ⟨e, he, -⟩ := writeWord_of_none hv hr hc hd
        rw [he] at h
        cases h

/-- An operand is stored by the raw write of the register cell its reference names, or by the generic write. -/
theorem storeOperand_ok {s u : State} {ref : Ref} {op : Operand} (h : storeOperand s ref op = .ok u) :
    (∃ r, refReg s.cfg ref = some r ∧ writeReg s r op.toNat = .ok u) ∨ writeWord s ref op.toNat = .ok u := by
  unfold storeOperand at h
  cases hw : wideAddr s.cfg ref with
  | none => rw [hw] at h; exact .inr h
  | some a =>
    rw [hw] at h
    obtain ⟨r, hu, hreg⟩ := bind_eq_ok h
    cases ref with
    | direct a' =>
      simp only [wideAddr] at hw
      split at hw
      · cases hw
        exact .inl ⟨r, usableReg_ok hu, hreg⟩
      · cases hw
    | banked t b o => cases hw
    | deadBank => cases hw

theorem Stores.of_writeReg {s u : State} {i : Instr} {r : Reg} {v : Nat} (hi : NamesReg s r i)
    (h : writeReg s r v = .ok u) : Stores s i u :=
  .register hi (writeReg_ok h)

theorem Stores.of_writeWord {s u : State} {i : Instr} {ref : Ref} {v : Nat}
    (hi : ∀ r, refReg s.cfg ref = some r → NamesReg s r i) (h : writeWord s ref v = .ok u) : Stores s i u := by
  obtain rfl | ⟨b, o, hc, rfl⟩ | ⟨r, hr, hreg⟩ := writeWord_ok h
  · exact .nothing i
  · exact .cell _ (refCell_some hc).2 (.inl rfl)
  · exact .of_writeReg (hi r hr) hreg

theorem Stores.of_storeOperand {s u : State} {i : Instr} {ref : Ref} {op : Operand}
    (hi : ∀ r, refReg s.cfg ref = some r → NamesReg s r i) (h : storeOperand s ref op = .ok u) : Stores s i u := by
  obtain ⟨r, hr, hreg⟩ | hw := storeOperand_ok h
  · exact .of_writeReg (hi r hr) hreg
  · exact .of_writeWord hi hw

/-! #### The operations on a reference, in either format -/

section
variable {s t : State} {ref : Ref} {i : Instr}

theorem completes_read (hi : answersWord i = true) (h : readRef s ref = .ok t) : Completes s i t := by
  obtain ⟨w, -, ht⟩ := bind_eq_ok h
  cases ht
  exact .word _ hi

theorem completes_write (hi : ActsOn s ref .writeF .writeR i) (h : writeRef s ref = .ok t) : Completes s i t := by
  obtain ⟨u, hw, ht⟩ := bind_eq_ok h
  cases ht
  exact .stored (.of_writeWord (fun r hr => .inr ⟨ref, hr, .inl hi⟩) hw)

theorem completes_ad (h : adRef s ref = .ok t) : Completes s i t := by
  obtain ⟨op, -, h'⟩ := bind_eq_ok h
  rw [addToA_eq, bind_ok] at h'
  cases h'
  exact .stored (.accumulator i _)

theorem completes_su (h : suRef s ref = .ok t) : Completes s i t := by
  obtain ⟨op, -, h'⟩ := bind_eq_ok h
  rw [addToA_eq, bind_ok] at h'
  cases h'
  exact .stored (.accumulator i _)

/-- INCR, AUG and DIM end alike: with the store of what they made of the operand. -/
theorem completes_store (hi : ∀ r, refReg s.cfg ref = some r → NamesReg s r i) {op : Operand}
    (h : (storeOperand s ref op >>= fun u => pure (done u)) = .ok t) : Completes s i t := by
  obtain ⟨u, hs, ht⟩ := bind_eq_ok h
  cases ht
  exact .stored (.of_storeOperand hi hs)

theorem completes_incr (hi : ActsOn s ref .incrF .incrR i) (h : incrRef s ref = .ok t) : Completes s i t := by
  obtain ⟨op, -, h'⟩ := bind_eq_ok h
  exact completes_store (fun r hr => .inr ⟨ref, hr, .inr (.inl hi)⟩) h'

theorem completes_aug (hi : ActsOn s ref .augF .augR i) (h : augRef s ref = .ok t) : Completes s i t := by
  obtain ⟨op, -, h'⟩ := bind_eq_ok h
  exact completes_store (fun r hr => .inr ⟨ref, hr, .inr (.inr (.inl hi))⟩) h'

theorem completes_dim (hi : ActsOn s ref .dimF .dimR i) (h : dimRef s ref = .ok t) : Completes s i t := by
  obtain ⟨op, -, h'⟩ := bind_eq_ok h
  split at h'
  · cases h'
    exact .stored (.nothing i)
  · exact completes_store (fun r hr => .inr ⟨ref, hr, .inr (.inr (.inr hi))⟩) h'

end

/-- Everything an operation can do when it completes. -/
theorem meaning_completes {i : Instr} {s t : State} (h : meaning i s = .ok t) : Completes s i t := by
  cases i with
  | readF k =>
    obtain ⟨ref, -, h⟩ := bind_eq_ok h
    exact completes_read rfl h
  | writeF k =>
    obtain ⟨ref, hd, h⟩ := bind_eq_ok h
    exact completes_write (actsOn_field _ _ hd) h
  | deduce k =>
    obtain ⟨ref, -, h⟩ := bind_eq_ok h
    cases h
    exact .reference k _
  | adF k =>
    obtain ⟨ref, -, h⟩ := bind_eq_ok h
    exact completes_ad h
  | com =>
    rw [meaning, writeReg_a_word, bind_ok] at h
    cases h
    exact .stored (.accumulator _ _)
  | incrF k =>
    obtain ⟨ref, hd, h⟩ := bind_eq_ok h
    exact completes_incr (actsOn_field _ _ hd) h
  | augF k =>
    obtain ⟨ref, hd, h⟩ := bind_eq_ok h
    exact completes_aug (actsOn_field _ _ hd) h
  | dimF k =>
    obtain ⟨ref, hd, h⟩ := bind_eq_ok h
    exact completes_dim (actsOn_field _ _ hd) h
  | suF k =>
    obtain ⟨ref, -, h⟩ := bind_eq_ok h
    exact completes_su h
  | double =>
    rw [meaning, addToA_eq, bind_ok] at h
    cases h
    exact .stored (.accumulator _ _)
  | regread n =>
    obtain ⟨r, -, h⟩ := bind_eq_ok h
    cases h
    exact .word _ rfl
  | regwrite n =>
    obtain ⟨r, hr, h⟩ := bind_eq_ok h
    obtain ⟨u, hw, h⟩ := bind_eq_ok h
    cases h
    exact .stored (.of_writeReg (.inl ⟨n, rfl, usableReg_ok hr⟩) hw)
  | setsb b =>
    cases h
    exact .stored (.flag b)
  | readR ref => exact completes_read rfl h
  | writeR ref => exact completes_write (.inl rfl) h
  | adR ref => exact completes_ad h
  | incrR ref => exact completes_incr (.inl rfl) h
  | augR ref => exact completes_aug (.inl rfl) h
  | dimR ref => exact completes_dim (.inl rfl) h
  | suR ref => exact completes_su h
  | bankread t b o =>
    obtain ⟨w, -, h⟩ := bind_eq_ok h
    cases h
    exact .word _ rfl
  | bankwrite t b o =>
    obtain ⟨w, -, h⟩ := bind_eq_ok h
    obtain ⟨_, hc, h⟩ := bind_eq_ok h
    cases h
    exact .stored (.cell w (checkCell_ok_iff.mp hc) (.inr rfl))

/-- Everything an instruction can do: complete, or fail with a code that is not 0. -/
theorem exec_completes {i : Instr} {s t : State} (h : exec i s = .next t) :
    Completes s i t ∨ ∃ e : Err, t = failed s (errCode e) := by
  obtain hok | ⟨e, -, rfl⟩ := exec_next h
  · exact .inl (meaning_completes hok)
  · exact .inr ⟨e, rfl⟩

theorem Completes.err {s t : State} {i : Instr} (h : Completes s i t) : t.err = 0#3 := by
  cases h <;> rfl

/-- An instruction never stops the machine (R166, R169). -/
theorem exec_exists_next (i : Instr) (s : State) : ∃ t, exec i s = .next t := by
  rw [exec_eq_conclude]
  cases meaning i s with
  | ok t => exact ⟨t, rfl⟩
  | error e => exact ⟨_, rfl⟩

/-! ### Rules about the whole machine -/

/-- What no store touches (R43, R86): the configuration, the input signals and the caller's list. -/
theorem Stores.frame {s u : State} {i : Instr} (h : Stores s i u) :
    u.cfg = s.cfg ∧ u.port = s.port ∧ u.pending = s.pending := by
  cases h with
  | nothing | accumulator | flag => exact ⟨rfl, rfl, rfl⟩
  | register _ hw =>
    obtain ⟨hcfg, -, -, -, hpending, hport⟩ := writeReg_frame (writeReg_of_ok hw)
    exact ⟨hcfg, hport, hpending⟩
  | @cell _ u b o v _ _ => cases u <;> exact ⟨rfl, rfl, rfl⟩

/-- Settles O14. -/
theorem execKeepsConfigurationAndPort : Obligations.ExecKeepsConfigurationAndPort := by
  intro i s t h
  obtain hc | ⟨e, rfl⟩ := exec_completes h
  · cases hc with
    | word | reference => exact ⟨rfl, rfl, rfl⟩
    | stored hs => exact hs.frame
  · exact ⟨rfl, rfl, rfl⟩

/-- Settles O15: an operation that completes answers code 0, so the code tells the failed ones. -/
theorem failedOperationChangesNoState : Obligations.FailedOperationChangesNoState := by
  intro i s t h herr
  obtain hc | ⟨e, rfl⟩ := exec_completes h
  · exact absurd hc.err herr
  · rfl

/-- Settles O16: of the five things an instruction can store only a cell is in a store, and only BANKWRITE stores a
cell outside the erasable one. -/
theorem fixedStorageChangesOnlyByBankwrite : Obligations.FixedStorageChangesOnlyByBankwrite := by
  intro i s t h hi
  obtain hc | ⟨e, rfl⟩ := exec_completes h
  case inr => rfl
  cases hc with
  | word | reference => rfl
  | stored hs =>
    cases hs with
    | nothing | accumulator | flag => rfl
    | register _ hw =>
      obtain ⟨-, -, -, hfixed, -, -⟩ := writeReg_frame (writeReg_of_ok hw)
      exact hfixed
    | @cell _ u b o v _ hu =>
      cases u with
      | erasable => rfl
      | fixed =>
        obtain hu | rfl := hu
        · cases hu
        · exact absurd rfl (hi b o)

/-- Settles O17. -/
theorem superbankFlagChangesOnlyBySetsb : Obligations.SuperbankFlagChangesOnlyBySetsb := by
  intro i s t h hi
  obtain hc | ⟨e, rfl⟩ := exec_completes h
  case inr => rfl
  cases hc with
  | word | reference => rfl
  | stored hs =>
    cases hs with
    | nothing | accumulator => rfl
    | register _ hw =>
      obtain ⟨-, hsb, -, -, -, -⟩ := writeReg_frame (writeReg_of_ok hw)
      exact hsb
    | @cell _ u b o v _ _ => cases u <;> rfl
    | flag b => exact absurd rfl (hi b)

/-- A store of a cell is no write of a register cell (R67). -/
theorem cellValue_setCell (s : State) (t : Store) (b o : Nat) (v : Word) (r : Reg) :
    cellValue (setCell s t b o v) r = cellValue s r := by
  cases t <;> cases r <;> rfl

/-- A raw write changes the cell it names and, beside it, bank cells alone (R13, R37). -/
theorem cellValue_of_writeRule {s u : State} {v : Nat} {r r' : Reg} (h : writeRule s v r' = .ok u) (hne : r ≠ r')
    (hr : r ∉ [Reg.a, .ebank, .fbank, .bbank]) : cellValue u r = cellValue s r := by
  cases r'
  case ebank | bbank =>
    simp only [writeRule] at h
    split at h
    · cases h
    · split at h
      · cases h
        cases r <;> simp_all [cellValue]
      · cases h
  all_goals
    obtain ⟨-, rfl⟩ := fits_ok h
    cases r <;> simp_all [cellValue]

/-- Settles O18: of the five things an instruction can store, only a register cell it names can be the changed one. -/
theorem registerChangesOnlyWhenNamed : Obligations.RegisterChangesOnlyWhenNamed := by
  intro i s t r hr h hchanged
  show NamesReg s r i
  obtain hc | ⟨e, rfl⟩ := exec_completes h
  case inr => exact absurd (by cases r <;> rfl) hchanged
  cases hc with
  | word | reference => exact absurd (by cases r <;> rfl) hchanged
  | @stored _ u hs =>
    have hu : cellValue u r ≠ cellValue s r := by cases r <;> exact hchanged
    cases hs with
    | nothing => exact absurd rfl hu
    | accumulator => exact absurd (by cases r <;> simp_all [cellValue]) hu
    | @register _ r' v _ hi hw =>
      by_cases hne : r = r'
      · exact hne ▸ hi
      · exact absurd (cellValue_of_writeRule hw hne hr) hu
    | cell => exact absurd (cellValue_setCell s _ _ _ _ r) hu
    | flag => exact absurd (by cases r <;> rfl) hu

/-- Settles O21. -/
theorem eachCommandDrivesItsOwnOutput : Obligations.EachCommandDrivesItsOwnOutput := by
  intro i s t h
  obtain hc | ⟨e, rfl⟩ := exec_completes h
  case inr => exact ⟨fun _ => rfl, fun _ _ _ _ => rfl⟩
  cases hc with
  | word d hi =>
    refine ⟨fun _ => rfl, fun hF hR hreg hbank => ?_⟩
    cases i with
    | readF k => exact absurd rfl (hF k)
    | readR ref => exact absurd rfl (hR ref)
    | regread n => exact absurd rfl (hreg n)
    | bankread u b o => exact absurd rfl (hbank u b o)
    | _ => cases hi
  | reference k r => exact ⟨fun hi => absurd rfl (hi k), fun _ _ _ _ => rfl⟩
  | stored => exact ⟨fun _ => rfl, fun _ _ _ _ => rfl⟩

end Sys2Proof.Machine

namespace Sys2Proof.Machine

/-! ### The step (30_encoding.md section 3, 70_reset_and_hazards.md section 4) -/

theorem step_of_pending {s : State} {c : Command} {rest : List Command} (h : s.pending = c :: rest) :
    step s = runPort (present s c rest) := by
  rw [step, h]

/-- Settles O7. -/
theorem stepRunsTheDecodedInstruction : Obligations.StepRunsTheDecodedInstruction := by
  intro s c rest i hp hd
  rw [step_of_pending hp, runPort, present_port, hd]
  rfl

/-- Settles O8. -/
theorem reservedCommandIsAnsweredInvalid : Obligations.ReservedCommandIsAnsweredInvalid := by
  intro s c rest r hp hd
  rw [step_of_pending hp, runPort, present_port, hd]
  rfl

/-- Settles O10. -/
theorem idleStepChangesNothing : Obligations.IdleStepChangesNothing := by
  intro s hp
  rw [step, hp]
  rfl

/-- A step always answers a next state and takes one command off the caller's list, if there is one (R196). -/
theorem step_exists_next (s : State) : ∃ t, step s = .next t ∧ t.pending = s.pending.tail := by
  obtain ⟨hnil, hstep⟩ | ⟨c, rest, hcons, ⟨i, -, hstep⟩ | ⟨r, -, hstep⟩⟩ := step_cases s
  · exact ⟨s, hstep, by rw [hnil]; rfl⟩
  · obtain ⟨t, ht⟩ := exec_exists_next i (present s c rest)
    obtain ⟨-, -, hpending⟩ := execKeepsConfigurationAndPort i _ t ht
    exact ⟨t, hstep.trans ht, by rw [hpending, hcons]; rfl⟩
  · exact ⟨_, hstep, by rw [hcons]; rfl⟩

theorem run_succ_of_next {M : Host.Core} {n : Nat} {s s' : M.State} (h : M.step s = .next s') :
    M.run (n + 1) s = M.run n s' := by
  rw [Host.Core.run, h]

/-- Settles O9: by induction on the number of steps, from every state. -/
theorem runsNeverStop : Obligations.RunsNeverStop := by
  intro n
  induction n with
  | zero => exact fun s => ⟨s, rfl, rfl⟩
  | succ n ih =>
    intro s
    obtain ⟨s', hstep, hs'⟩ := step_exists_next s
    obtain ⟨t, hrun, ht⟩ := ih s'
    exact ⟨t, (run_succ_of_next hstep).trans hrun, by rw [ht, hs', List.drop_tail]⟩

/-! ### The invariant

Only EBANK, SR, the stores and the outputs stand in it: a raw write leaves EBANK and SR alone or puts a value in shape
there, a store of a cell keeps the canonical form, and every answer drives at most one data output. -/

theorem ebankInShape_of_writeRule {s u : State} {v : Nat} {r : Reg} (h : writeRule s v r = .ok u)
    (hs : EbankInShape s) : EbankInShape u := by
  cases r
  case ebank =>
    simp only [writeRule] at h
    split at h
    · cases h
    · split at h
      next hv hshape =>
        cases h
        rw [ebankInShape_iff, toNat_ofNat_of_lt (Nat.not_le.mp hv)]
        exact hshape
      · cases h
  case bbank =>
    simp only [writeRule] at h
    split at h
    · cases h
    · split at h
      · cases h
        rw [ebankInShape_iff, toNat_ofNat_of_lt (by omega)]
        omega
      · cases h
  all_goals
    obtain ⟨-, rfl⟩ := fits_ok h
    exact hs

/-- R31: the shift is logical. -/
theorem shiftRight_bit15 (w : Word) : (shiftRight w).getLsbD 14 = false := by
  rw [shiftRight, BitVec.getLsbD_ushiftRight]
  exact BitVec.getLsbD_of_ge _ _ (by decide)

theorem srInShape_of_writeRule {s u : State} {v : Nat} {r : Reg} (h : writeRule s v r = .ok u)
    (hs : SrInShape s) : SrInShape u := by
  cases r
  case ebank | bbank =>
    simp only [writeRule] at h
    split at h
    · cases h
    · split at h
      · cases h
        exact hs
      · cases h
  case sr =>
    obtain ⟨hv, rfl⟩ := fits_ok h
    rw [SrInShape, ← shiftRight_ofNat hv]
    exact shiftRight_bit15 _
  all_goals
    obtain ⟨-, rfl⟩ := fits_ok h
    exact hs

theorem storesCanonical_setCell {s : State} {t : Store} {b o : Nat} (v : Word) (hb : b < numBanks t ∧ o < bankSize t)
    (hs : StoresCanonical s) : StoresCanonical (setCell s t b o v) := by
  obtain ⟨hewf, hewithin, hfwf, hfwithin⟩ := hs
  have hi := cellIndex_lt hb.1 hb.2
  cases t with
  | erasable => exact ⟨wf_writeCell hewf _ v, within_writeCell hewithin hi v, hfwf, hfwithin⟩
  | fixed => exact ⟨hewf, hewithin, wf_writeCell hfwf _ v, within_writeCell hfwithin hi v⟩

/-- The invariant without its part about the outputs. -/
structure StateInv (s : State) : Prop where
  ebank : EbankInShape s
  sr : SrInShape s
  stores : StoresCanonical s

theorem Stores.stateInv {s u : State} {i : Instr} (h : Stores s i u) (hs : StateInv s) : StateInv u := by
  cases h with
  | nothing | accumulator | flag => exact ⟨hs.ebank, hs.sr, hs.stores⟩
  | register _ hw =>
    obtain ⟨-, -, herasable, hfixed, -, -⟩ := writeReg_frame (writeReg_of_ok hw)
    refine ⟨ebankInShape_of_writeRule hw hs.ebank, srInShape_of_writeRule hw hs.sr, ?_⟩
    rw [StoresCanonical, herasable, hfixed]
    exact hs.stores
  | @cell _ u b o v hb _ =>
    refine ⟨?_, ?_, storesCanonical_setCell v hb hs.stores⟩
    · cases u <;> exact hs.ebank
    · cases u <;> exact hs.sr

/-- An answer that drives one data output at most is consistent (R86). -/
theorem inv_answer {s : State} {d : BitVec 16} {r : PackedRef} (hs : StateInv s) (h : d = 0#16 ∨ r = 0#20) :
    Inv (answer s d r) :=
  ⟨hs.ebank, hs.sr, hs.stores, Nat.zero_le _, fun herr => absurd rfl herr, h⟩

theorem errCode_toNat_le (e : Err) : (errCode e).toNat ≤ 5 := by
  cases e <;> simp [errCode]

theorem inv_takeError {s : State} (e : Err) (hs : StateInv s) : Inv (takeError s e) :=
  ⟨hs.ebank, hs.sr, hs.stores, errCode_toNat_le e, fun _ => ⟨rfl, rfl⟩, .inl rfl⟩

theorem exec_inv {i : Instr} {s t : State} (hs : StateInv s) (h : exec i s = .next t) : Inv t := by
  obtain hc | ⟨e, rfl⟩ := exec_completes h
  case inr => exact inv_takeError e hs
  cases hc with
  | word d => exact inv_answer hs (.inr rfl)
  | reference k r => exact inv_answer hs (.inl rfl)
  | stored hst => exact inv_answer (hst.stateInv hs) (.inl rfl)

/-- Settles O11: presenting a command touches nothing the invariant speaks of; then by what the step does. -/
theorem stepKeepsTheInvariant : Obligations.StepKeepsTheInvariant := by
  intro s t hs h
  have hpresent (c : Command) (rest : List Command) : StateInv (present s c rest) := ⟨hs.ebank, hs.sr, hs.stores⟩
  obtain ⟨-, hstep⟩ | ⟨c, rest, -, ⟨i, -, hstep⟩ | ⟨r, -, hstep⟩⟩ := step_cases s
  · cases hstep.symm.trans h
    exact hs
  · exact exec_inv (hpresent c rest) (hstep.symm.trans h)
  · cases hstep.symm.trans h
    exact inv_takeError _ (hpresent c rest)

theorem inv_resetWith (cfg : Config) : Inv (State.resetWith cfg) where
  ebank := show 0#15 &&& 0o03400#15 = 0#15 by decide
  sr := show (0#15).getLsbD 14 = false by decide
  stores := ⟨wf_nil, within_nil _, wf_nil, within_nil _⟩
  outputs := ⟨Nat.zero_le _, fun herr => absurd rfl herr, .inl rfl⟩

/-- Settles O12. -/
theorem resetHasTheInvariant : Obligations.ResetHasTheInvariant := ⟨inv_resetWith, inv_resetWith _⟩

/-- Settles O13: both stores list no cell, and every stored register is 0. -/
theorem resetLeavesZero : Obligations.ResetLeavesZero := by
  intro cfg
  refine ⟨fun t b o => ?_, fun r => ?_, rfl⟩
  · cases t <;> rfl
  · cases r
    case bbank => show (0#5).toNat * 1024 + (0#15).toNat / 256 = 0; decide
    all_goals rfl

/-! ### Signals that have no influence (R43, R86)

`withSignals` puts other values on the port and on the outputs. No operation over the state looks at them but for
`din`, so each one leaves them as it finds them (`writeReg_withSignals` to `storeOperand_withSignals`). -/

/-- `s` with other values on all signals. -/
def withSignals (s : State) (c : Command) (d : BitVec 16) (r : PackedRef) (e : BitVec 3) : State :=
  { s with port := c, dout := d, refOut := r, err := e }

/-- The commands that use `din` (R86). -/
def usesData : Instr → Bool
  | .writeF _ | .writeR _ | .regwrite _ | .bankwrite _ _ _ => true
  | _ => false

section
variable (s : State) (c : Command) (d : BitVec 16) (p : PackedRef) (e : BitVec 3)

theorem deduceAddress_withSignals (k : Nat) : deduceAddress (withSignals s c d p e) k = deduceAddress s k := rfl

theorem readReg_withSignals (r : Reg) : readReg (withSignals s c d p e) r = readReg s r := by
  cases r <;> rfl

theorem readBanked_withSignals (t : Store) (b o : Nat) :
    readBanked (withSignals s c d p e) t b o = readBanked s t b o := by
  cases t <;> rfl

theorem readWord_withSignals (ref : Ref) : readWord (withSignals s c d p e) ref = readWord s ref := by
  cases ref with
  | direct a =>
    simp only [readWord, readRegMasked, readReg_withSignals, readBanked_withSignals]
    rfl
  | banked t b o => exact readBanked_withSignals s c d p e t b o
  | deadBank => rfl

theorem loadOperand_withSignals (ref : Ref) : loadOperand (withSignals s c d p e) ref = loadOperand s ref := by
  simp only [loadOperand, readWord_withSignals, readReg_withSignals]
  rfl

theorem setCell_withSignals (t : Store) (b o : Nat) (v : Word) :
    setCell (withSignals s c d p e) t b o v = withSignals (setCell s t b o v) c d p e := by
  cases t <;> rfl

theorem writeBanked_withSignals (t : Store) (b o : Nat) (v : Word) :
    writeBanked (withSignals s c d p e) t b o v = (withSignals · c d p e) <$> writeBanked s t b o v := by
  simp only [writeBanked, map_bind]
  cases t <;> rfl

theorem writeReg_withSignals (r : Reg) (v : Nat) :
    writeReg (withSignals s c d p e) r v = (withSignals · c d p e) <$> writeReg s r v := by
  cases r
  case ebank =>
    simp only [writeReg, writeEbank_eq]
    split
    · rfl
    · split <;> rfl
  case bbank =>
    simp only [writeReg, writeBbank_eq]
    split
    · rfl
    · split <;> rfl
  all_goals
    simp only [writeReg, writeL, writeFbank, map_bind]
    rfl

theorem writeWord_withSignals (ref : Ref) (v : Nat) :
    writeWord (withSignals s c d p e) ref v = (withSignals · c d p e) <$> writeWord s ref v := by
  cases ref with
  | direct a =>
    simp only [writeWord, writeReg_withSignals, writeBanked_withSignals, map_bind]
    show (_ >>= fun w => if isRegAddr s.cfg a then _ else _) = _
    congr 1
    funext w
    split <;> simp only [map_bind] <;> rfl
  | banked t b o => simp only [writeWord, writeBanked_withSignals, map_bind]
  | deadBank =>
    simp only [writeWord, map_bind]
    rfl

theorem storeOperand_withSignals (ref : Ref) (op : Operand) :
    storeOperand (withSignals s c d p e) ref op = (withSignals · c d p e) <$> storeOperand s ref op := by
  simp only [storeOperand, writeReg_withSignals, writeWord_withSignals]
  show (match wideAddr s.cfg ref with | some a => _ | none => _) = _
  cases wideAddr s.cfg ref with
  | none => rfl
  | some a => simp only [map_bind]; rfl

/-- The input signals replaced, once an operation has answered. -/
def withPort (c : Command) (t : State) : State :=
  { t with port := c }

theorem readRef_withSignals (ref : Ref) :
    readRef (withSignals s c d p e) ref = withPort c <$> readRef s ref := by
  simp only [readRef, readWord_withSignals, map_bind]
  rfl

theorem adRef_withSignals (ref : Ref) : adRef (withSignals s c d p e) ref = withPort c <$> adRef s ref := by
  simp only [adRef, loadOperand_withSignals, addToA_eq, map_bind]
  rfl

theorem suRef_withSignals (ref : Ref) : suRef (withSignals s c d p e) ref = withPort c <$> suRef s ref := by
  simp only [suRef, loadOperand_withSignals, addToA_eq, map_bind]
  rfl

theorem incrRef_withSignals (ref : Ref) : incrRef (withSignals s c d p e) ref = withPort c <$> incrRef s ref := by
  simp only [incrRef, loadOperand_withSignals, storeOperand_withSignals, map_bind, bind_map_left]
  rfl

theorem augRef_withSignals (ref : Ref) : augRef (withSignals s c d p e) ref = withPort c <$> augRef s ref := by
  simp only [augRef, loadOperand_withSignals, storeOperand_withSignals, map_bind, bind_map_left]
  rfl

theorem dimRef_withSignals (ref : Ref) : dimRef (withSignals s c d p e) ref = withPort c <$> dimRef s ref := by
  simp only [dimRef, loadOperand_withSignals, storeOperand_withSignals, map_bind, bind_map_left]
  congr 1
  funext op
  split
  · rfl
  · simp only [map_bind]
    rfl

theorem writeRef_withSignals (hc : c.din = s.port.din) (ref : Ref) :
    writeRef (withSignals s c d p e) ref = withPort c <$> writeRef s ref := by
  have hdata : dataIn (withSignals s c d p e) = dataIn s := congrArg BitVec.toNat hc
  simp only [writeRef, hdata, writeWord_withSignals, map_bind, bind_map_left]
  rfl

/-- A format F command resolves its field alike, so it is as free of the signals as its format R command (R87). -/
theorem field_withSignals {f : State → Ref → Except Err State}
    (hf : ∀ ref, f (withSignals s c d p e) ref = withPort c <$> f s ref) (k : Nat) :
    (deduceAddress (withSignals s c d p e) k >>= f (withSignals s c d p e)) =
      withPort c <$> (deduceAddress s k >>= f s) := by
  rw [deduceAddress_withSignals, map_bind]
  exact congrArg _ (funext hf)

/-- With other values on the signals an operation does the same, but that a command that uses `din` needs that one
signal unchanged. -/
theorem meaning_withSignals {i : Instr} (h : usesData i = true → c.din = s.port.din) :
    meaning i (withSignals s c d p e) = withPort c <$> meaning i s := by
  have hdata (hi : usesData i = true) : dataIn (withSignals s c d p e) = dataIn s := congrArg BitVec.toNat (h hi)
  cases i with
  | readF k => exact field_withSignals s c d p e (readRef_withSignals s c d p e) k
  | writeF k => exact field_withSignals s c d p e (writeRef_withSignals s c d p e (h rfl)) k
  | deduce k => simp only [meaning, deduceAddress_withSignals, map_bind]; rfl
  | adF k => exact field_withSignals s c d p e (adRef_withSignals s c d p e) k
  | com => simp only [meaning, writeReg_a_word]; rfl
  | incrF k => exact field_withSignals s c d p e (incrRef_withSignals s c d p e) k
  | augF k => exact field_withSignals s c d p e (augRef_withSignals s c d p e) k
  | dimF k => exact field_withSignals s c d p e (dimRef_withSignals s c d p e) k
  | suF k => exact field_withSignals s c d p e (suRef_withSignals s c d p e) k
  | double => simp only [meaning, addToA_eq]; rfl
  | regread n => simp only [meaning, readReg_withSignals, map_bind]; rfl
  | regwrite n => simp only [meaning, hdata rfl, writeReg_withSignals, map_bind, bind_map_left]; rfl
  | setsb b => rfl
  | readR ref => exact readRef_withSignals s c d p e ref
  | writeR ref => exact writeRef_withSignals s c d p e (h rfl) ref
  | adR ref => exact adRef_withSignals s c d p e ref
  | incrR ref => exact incrRef_withSignals s c d p e ref
  | augR ref => exact augRef_withSignals s c d p e ref
  | dimR ref => exact dimRef_withSignals s c d p e ref
  | suR ref => exact suRef_withSignals s c d p e ref
  | bankread t b o => simp only [meaning, readBanked_withSignals, map_bind]; rfl
  | bankwrite t b o => simp only [meaning, hdata rfl, setCell_withSignals, map_bind]; rfl

/-- The same for the whole instruction: the answer or the error is that of `s`, with the given command on the port. -/
theorem exec_withSignals {i : Instr} {t : State} (h : usesData i = true → c.din = s.port.din)
    (hexec : exec i s = .next t) : exec i (withSignals s c d p e) = .next (withPort c t) := by
  rw [exec_eq_conclude, meaning_withSignals s c d p e h]
  obtain hok | ⟨err, herr, rfl⟩ := exec_next hexec
  · rw [hok]
    rfl
  · rw [herr]
    rfl

end

/-- Settles O19: `exec_withSignals` with the command that stands on the port. -/
theorem outputsNeverFeedBack : Obligations.OutputsNeverFeedBack := by
  intro i s d r e
  obtain ⟨t, ht⟩ := exec_exists_next i s
  obtain ⟨-, hport, -⟩ := execKeepsConfigurationAndPort i s t ht
  calc exec i { s with dout := d, refOut := r, err := e }
    _ = .next (withPort s.port t) := exec_withSignals s s.port d r e (fun _ => rfl) ht
    _ = .next t := by rw [withPort, ← hport]
    _ = exec i s := ht.symm

/-- Settles O20: `exec_withSignals` with the outputs as they are. -/
theorem otherCommandsIgnoreTheData : Obligations.OtherCommandsIgnoreTheData := by
  intro i s t c hwriteF hwriteR hregwrite hbankwrite ht
  have hi : usesData i ≠ true := by
    cases i with
    | writeF k => exact absurd rfl (hwriteF k)
    | writeR ref => exact absurd rfl (hwriteR ref)
    | regwrite n => exact absurd rfl (hregwrite n)
    | bankwrite u b o => exact absurd rfl (hbankwrite u b o)
    | _ => exact Bool.false_ne_true
  exact exec_withSignals s c s.dout s.refOut s.err (fun h => absurd h hi) ht

end Sys2Proof.Machine

namespace Sys2Proof.Machine

/-! ### Address resolution (20_memory.md sections 1, 2 and 5) -/

/-- An operation whose first part fails is answered with that error's code (R166). -/
theorem conclude_bind_error {α : Type} {s : State} {x : Except Err α} {f : α → Except Err State} {code : BitVec 3}
    (h : ∃ e, x = .error e ∧ errCode e = code) : conclude s (x >>= f) = .next (failed s code) := by
  obtain ⟨e, rfl, rfl⟩ := h
  rfl

/-- Settles O22. -/
theorem deduceAnswersTheReferenceOfTheField : Obligations.DeduceAnswersTheReferenceOfTheField := by
  intro s k
  refine ⟨fun hk => ?_, fun hk => conclude_bind_error ⟨_, deduceAddress_of_le s hk, rfl⟩⟩
  show execDeduce k s = _
  rw [execDeduce, deduceAddress_of_lt s hk]
  rfl

theorem switchedFixedRef_wf (s : State) {o : Nat} (ho : o < 2 ^ 10) : (switchedFixedRef s o).wf = true := by
  have hf := s.fbank.isLt
  unfold switchedFixedRef
  split
  · exact Ref.wf_banked_iff.mpr ⟨by omega, ho⟩
  · split
    · exact Ref.wf_banked_iff.mpr ⟨by omega, ho⟩
    · split
      · exact Ref.wf_banked_iff.mpr ⟨by omega, ho⟩
      · rfl

/-- What a field resolves to crosses the port (R81 to R84). -/
theorem fieldRef_wf (s : State) {k : Nat} (hk : k < 2 ^ 12) : (fieldRef s k).wf = true := by
  have he := s.ebank.isLt
  unfold fieldRef
  split
  · exact Ref.wf_direct_iff.mpr (by omega)
  · split
    · exact Ref.wf_banked_iff.mpr ⟨by omega, by omega⟩
    · split
      · exact switchedFixedRef_wf s (by omega)
      · exact Ref.wf_direct_iff.mpr (by omega)

/-- Settles O23: DEDUCE changes the outputs alone, which do not feed back, and its answer unpacks to the reference the
field resolves to. -/
theorem formatFIsDeduceThenFormatR : Obligations.FormatFIsDeduceThenFormatR := by
  intro s k hk
  obtain ⟨hdeduce, -⟩ := deduceAnswersTheReferenceOfTheField s k
  refine ⟨_, fieldRef s k, hdeduce hk, unpack_pack (fieldRef_wf s hk), fun op hop => ?_⟩
  rw [exec_field s hk hop]
  exact outputsNeverFeedBack (op.2 (fieldRef s k)) s 0#16 (pack (fieldRef s k)) 0#3

/-! #### Two references to one storage cell -/

/-- Both references are narrow, and reading and writing through the one is reading and writing through the other. -/
structure SameTarget (s : State) (ref ref' : Ref) : Prop where
  read : readWord s ref = readWord s ref'
  write : ∀ v, writeWord s ref v = writeWord s ref' v
  narrow : wideAddr s.cfg ref = none
  narrow' : wideAddr s.cfg ref' = none

/-- No operation tells two references to one cell apart (R66). -/
theorem exec_of_sameTarget {s : State} {ref ref' : Ref} (h : SameTarget s ref ref')
    {op : (Nat → Instr) × (Ref → Instr)} (hop : op ∈ bothFormats) : exec (op.2 ref) s = exec (op.2 ref') s := by
  have hload : loadOperand s ref = loadOperand s ref' := by
    rw [loadOperand, loadOperand, h.narrow, h.narrow', h.read]
  have hstore (v : Operand) : storeOperand s ref v = storeOperand s ref' v := by
    rw [storeOperand, storeOperand, h.narrow, h.narrow', h.write]
  simp only [bothFormats, List.mem_cons, List.not_mem_nil, or_false] at hop
  rcases hop with rfl | rfl | rfl | rfl | rfl | rfl | rfl
  · show conclude s (readRef s ref) = conclude s (readRef s ref')
    rw [readRef, readRef, h.read]
  · show conclude s (writeRef s ref) = conclude s (writeRef s ref')
    rw [writeRef, writeRef, h.write]
  · show conclude s (adRef s ref) = conclude s (adRef s ref')
    rw [adRef, adRef, hload]
  · show conclude s (incrRef s ref) = conclude s (incrRef s ref')
    simp only [incrRef, hload, hstore]
  · show conclude s (augRef s ref) = conclude s (augRef s ref')
    simp only [augRef, hload, hstore]
  · show conclude s (dimRef s ref) = conclude s (dimRef s ref')
    simp only [dimRef, hload, hstore]
  · show conclude s (suRef s ref) = conclude s (suRef s ref')
    rw [suRef, suRef, hload]

/-- A Direct address above the register range and its canonical Banked form (R54, R55). -/
theorem sameTarget_canonDirect {s : State} {a : Nat} {t : Store} {b o : Nat} (ha : s.cfg.regLimit ≤ a)
    (hc : canonDirect s.cfg a = .ok (t, b, o)) : SameTarget s (.direct a) (.banked t b o) where
  read := by
    rw [readWord_direct_cell (Nat.not_lt.mpr ha), hc]
    rfl
  write v := by simp [writeWord, isRegAddr, Nat.not_lt.mpr ha, hc]
  narrow := by simp [wideAddr, isWide, regOf, isRegAddr, Nat.not_lt.mpr ha]
  narrow' := rfl

theorem canonDirect_erasable (cfg : Config) {a : Nat} (h : a < 0o1400) :
    canonDirect cfg a = .ok (.erasable, a / 256, a % 256) := by
  rw [canonDirect_eq, if_pos h]

theorem canonDirect_fixed (cfg : Config) {a : Nat} (h : 0o4000 ≤ a) (h' : a < 0o10000) :
    canonDirect cfg a = .ok (.fixed, cfg.ffBase + (a - 0o4000) / 1024, a % 1024) := by
  rw [canonDirect_eq, if_neg (by omega), if_pos ⟨h, h'⟩]

/-- A switched erasable field names the bank EBANK selects (R51, R56). -/
theorem fieldRef_switchedErasable (s : State) (a : Nat) :
    fieldRef s (0o1400 + a % 256) = .banked .erasable (s.ebank.toNat / 256) (a % 256) := by
  rw [fieldRef, if_neg (by omega), if_pos (by omega), show (0o1400 + a % 256) % 256 = a % 256 by omega]

/-- A switched fixed field names the bank FBANK and the flag select (R51, R57). -/
theorem fieldRef_switchedFixed (s : State) (a : Nat) :
    fieldRef s (0o2000 + a % 1024) = switchedFixedRef s (a % 1024) := by
  rw [fieldRef, if_neg (by omega), if_neg (by omega), if_pos (by omega),
    show (0o2000 + a % 1024) % 1024 = a % 1024 by omega]

/-- Settles O24: the direct reference and its canonical form have one target; a switched field is the format R command
on the banked reference it resolves to. -/
theorem aliasesActAlike : Obligations.AliasesActAlike := by
  intro s a ha op hop
  have herasable (h : a < 0o1400) := exec_of_sameTarget (sameTarget_canonDirect ha (canonDirect_erasable s.cfg h)) hop
  have hfixed (h : 0o4000 ≤ a) (h' : a < 0o10000) :=
    exec_of_sameTarget (sameTarget_canonDirect ha (canonDirect_fixed s.cfg h h')) hop
  refine ⟨herasable, fun h hbank => ?_, hfixed, fun h h' hbank => ?_⟩
  · rw [exec_field s (by omega) hop, fieldRef_switchedErasable, hbank, herasable h]
  · rw [exec_field s (by omega) hop, fieldRef_switchedFixed, hbank, hfixed h h']

/-- Settles O25: a WRITE that completes stores what the generic write stores; a register address names no cell of a
store, and a Banked reference names no register cell. -/
theorem shadowedCellsAreSeparateState : Obligations.ShadowedCellsAreSeparateState := by
  intro s t
  constructor
  · intro a ha h
    obtain hok | ⟨e, -, rfl⟩ := exec_next h
    case inr => exact ⟨rfl, rfl⟩
    obtain ⟨u, hw, ht⟩ := bind_eq_ok hok
    cases ht
    obtain rfl | ⟨b, o, hc, -⟩ | ⟨r, -, hreg⟩ := writeWord_ok hw
    · exact ⟨rfl, rfl⟩
    · exact absurd ha (canonDirect_of_refCell hc).1
    · obtain ⟨-, -, herasable, hfixed, -, -⟩ := writeReg_frame hreg
      exact ⟨herasable, hfixed⟩
  · intro u b o h r
    obtain hok | ⟨e, -, rfl⟩ := exec_next h
    case inr => cases r <;> rfl
    obtain ⟨s', hw, ht⟩ := bind_eq_ok hok
    cases ht
    have hs' : cellValue s' r = cellValue s r := by
      obtain rfl | ⟨b', o', -, rfl⟩ | ⟨r', hr', -⟩ := writeWord_ok hw
      · rfl
      · exact cellValue_setCell s _ _ _ _ r
      · cases hr'
    exact Eq.trans (by cases r <;> rfl) hs'

/-! ### READ and WRITE (20_memory.md sections 3 and 4, 41_memory_ops.md) -/

theorem exec_read {s : State} {ref : Ref} {i : Instr} (h : ActsOn s ref .readF .readR i) :
    exec i s = conclude s (readRef s ref) :=
  exec_of_actsOn read_mem h

theorem exec_write {s : State} {ref : Ref} {i : Instr} (h : ActsOn s ref .writeF .writeR i) :
    exec i s = conclude s (writeRef s ref) :=
  exec_of_actsOn write_mem h

theorem readRef_of_ok {s : State} {ref : Ref} {w : Word} (h : readWord s ref = .ok w) :
    readRef s ref = .ok { completed s with dout := w.setWidth 16 } := by
  rw [readRef, h]
  rfl

theorem writeRef_of_ok {s u : State} {ref : Ref} (h : writeWord s ref s.port.din.toNat = .ok u) :
    writeRef s ref = .ok (completed u) := by
  rw [writeRef, dataIn, h]
  rfl

/-- A raw write at the end of an operation, by the cell's rule (R13). -/
theorem conclude_writeReg_ok {s t : State} {v : Nat} {r : Reg} (h : writeRule s v r = .ok t) :
    conclude s (writeReg s r v >>= fun u => pure (completed u)) = .next (completed t) := by
  rw [writeReg_of_ok h]
  rfl

theorem conclude_writeReg_error {s : State} {v : Nat} {r : Reg} {e : BitVec 3} (h : writeRule s v r = .error e) :
    conclude s (writeReg s r v >>= fun u => pure (completed u)) = .next (failed s e) :=
  conclude_bind_error (writeReg_of_error h)

/-- The generic read of a register cell, widened to `dout` (R59). -/
theorem setWidth_ofNat_word (n : Nat) : (BitVec.ofNat 15 n).setWidth 16 = BitVec.ofNat 16 (n % 32768) := by
  apply BitVec.eq_of_toNat_eq
  rw [BitVec.toNat_setWidth, BitVec.toNat_ofNat, BitVec.toNat_ofNat]

/-- Settles O26. -/
theorem readAnswersTheNamedWord : Obligations.ReadAnswersTheNamedWord := by
  intro s ref i hi
  rw [exec_read hi]
  refine ⟨fun t b o hc => ?_, fun r hr => ?_, fun hd => ?_⟩
  · rw [readRef_of_ok (readWord_of_cell hc)]
    rfl
  · rw [readRef_of_ok (readWord_of_reg hr), setWidth_ofNat_word]
    rfl
  · rw [readRef_of_ok (hd ▸ readWord_deadBank s)]
    rfl

/-- Settles O27: the generic write by what the reference names. -/
theorem writeStoresTheWordByTarget : Obligations.WriteStoresTheWordByTarget := by
  intro s ref i hi hdin
  rw [exec_write hi]
  refine ⟨fun b o hc => ?_, fun b o hc => ?_, fun hd => ?_, fun r hr => ?_⟩
  · rw [writeRef_of_ok (writeWord_of_erasable hdin hc), BitVec.ofNat_toNat]
    exact ⟨_, rfl, fun j => readCell_writeCell _ _ j _⟩
  · rw [writeRef_of_ok (writeWord_of_fixed hdin hc)]
    rfl
  · rw [writeRef_of_ok (hd ▸ writeWord_deadBank hdin)]
    rfl
  · rw [writeRef, dataIn, writeWord_of_reg hdin hr]
    exact ⟨fun t => conclude_writeReg_ok, fun e => conclude_writeReg_error⟩

/-- Settles O28: the width check comes before the target is looked at. -/
theorem sixteenBitDataIsRefused : Obligations.SixteenBitDataIsRefused := by
  intro s hdin
  have hR (ref : Ref) : exec (.writeR ref) s = .next (failed s 1#3) :=
    conclude_bind_error ⟨_, writeWord_of_le hdin, rfl⟩
  refine ⟨hR, fun k hk => ?_, fun t b o => conclude_bind_error ⟨_, asWord_of_le hdin, rfl⟩⟩
  exact (exec_field s hk write_mem).trans (hR _)

/-- An operand that cannot be read: the reference names no register cell, no storage cell and no dead bank. -/
theorem operandOf_eq_none {s : State} {ref : Ref} (h : operandOf s ref = none) :
    refReg s.cfg ref = none ∧ refCell s.cfg ref = none ∧ ref ≠ .deadBank := by
  unfold operandOf at h
  cases hr : refReg s.cfg ref with
  | some r => rw [hr] at h; cases r <;> cases h
  | none =>
    rw [hr] at h
    cases hc : refCell s.cfg ref with
    | some x => rw [hc] at h; cases h
    | none =>
      refine ⟨rfl, rfl, fun hd => ?_⟩
      rw [hc] at h
      simp [hd] at h

/-- Settles O29: each operation begins with the read or the write that fails. -/
theorem unusableReferenceIsRefused : Obligations.UnusableReferenceIsRefused := by
  intro s ref i hnone ⟨op, hop, hi⟩ hdin
  obtain ⟨hr, hc, hd⟩ := operandOf_eq_none hnone
  have hread := readWord_of_none hr hc hd
  have hwrite := writeWord_of_none hdin hr hc hd
  have hload := loadOperand_of_none hnone
  rw [exec_of_actsOn hop hi]
  simp only [bothFormats, List.mem_cons, List.not_mem_nil, or_false] at hop
  rcases hop with rfl | rfl | rfl | rfl | rfl | rfl | rfl
  · exact conclude_bind_error hread
  · exact conclude_bind_error hwrite
  all_goals exact conclude_bind_error hload

/-- Settles O30: the WRITE puts the word in the cell (O27), the READ answers what is there (O26). -/
theorem readReturnsTheWrittenWord : Obligations.ReadReturnsTheWrittenWord := by
  intro s t ref ref' i j b o hc hc' hdin hi hexec hj
  obtain ⟨hwrite, -⟩ := writeStoresTheWordByTarget s ref i hi hdin
  obtain ⟨m, hm, hcells⟩ := hwrite b o hc
  cases hexec.symm.trans hm
  obtain ⟨hread, -⟩ := readAnswersTheNamedWord _ ref' j hj
  rw [hread .erasable b o hc']
  have hword : readCell m (cellIndex .erasable b o) = s.port.din.setWidth 15 := by rw [hcells, if_pos rfl]
  have hwide : (s.port.din.setWidth 15).setWidth 16 = s.port.din := by
    apply BitVec.eq_of_toNat_eq
    rw [BitVec.toNat_setWidth, BitVec.toNat_setWidth]
    omega
  have hcell : (cell { completed s with erasable := m } .erasable b o).setWidth 16 = s.port.din :=
    (congrArg (BitVec.setWidth 16) hword).trans hwide
  rw [hcell]

/-- Settles O31: below the limit the generic write is the raw write of the cell the map names. -/
theorem writeToRegisterAddressIsRegwrite : Obligations.WriteToRegisterAddressIsRegwrite := by
  intro s a ha hdin
  have hR : exec (.writeR (.direct a)) s = exec (.regwrite a) s := by
    show conclude s (writeRef s (.direct a)) = execRegwrite a s
    rw [writeRef, dataIn, writeWord_of_lt hdin, execRegwrite]
    simp only [isRegAddr, ha, decide_true, if_true, bind_assoc]
    rfl
  refine ⟨hR, fun hlow => ?_⟩
  have hfield : fieldRef s a = .direct a := by rw [fieldRef, if_pos hlow]
  exact (exec_field s (by omega) write_mem).trans (hfield ▸ hR)

/-! ### The register numbers (REGREAD, REGWRITE) -/

/-- Settles O32. -/
theorem regreadAnswersTheRawValue : Obligations.RegreadAnswersTheRawValue := by
  intro s n
  refine ⟨fun r hr => ?_, fun hn => conclude_bind_error ⟨_, usableReg_none hn, rfl⟩⟩
  show execRegread n s = _
  rw [execRegread, usableReg_some hr, bind_ok, readReg_eq]
  rfl

/-- REGWRITE of a usable number is the raw write of `din` (R124). -/
theorem exec_regwrite {s : State} {n : Nat} {r : Reg} (h : regAtAddress s.cfg n = some r) :
    exec (.regwrite n) s = conclude s (writeReg s r s.port.din.toNat >>= fun u => pure (completed u)) := by
  show execRegwrite n s = _
  rw [execRegwrite, usableReg_some h, bind_ok]
  rfl

/-- Settles O33. -/
theorem regwriteFollowsTheCellsRule : Obligations.RegwriteFollowsTheCellsRule := by
  intro s n
  refine ⟨fun r hr => ?_, fun hn => conclude_bind_error ⟨_, usableReg_none hn, rfl⟩⟩
  rw [exec_regwrite hr]
  exact ⟨fun t => conclude_writeReg_ok, fun e => conclude_writeReg_error⟩

/-- Settles O34: `din` has 16 bits, so the 16-bit check of the three cells lets it through. -/
theorem regwriteOfSixteenBitCells : Obligations.RegwriteOfSixteenBitCells := by
  intro s n
  refine ⟨fun h => ?_, fun h => ?_, fun h => ?_⟩
  · rw [exec_regwrite h, writeReg_a_word]
    rfl
  · rw [exec_regwrite h, writeReg_q_word]
    rfl
  · rw [exec_regwrite h, writeReg, writeL, asWord_toNat]
    rfl

/-! ### The bank port and the superbank flag (R125 to R127) -/

theorem checkCell_invalidBank {t : Store} {b : Nat} (o : Nat) (h : numBanks t ≤ b) :
    checkCell t b o = .error (.invalidBank b) := if_pos h

theorem checkCell_outOfBounds {t : Store} {b o : Nat} (hb : b < numBanks t) (ho : bankSize t ≤ o) :
    checkCell t b o = .error (.addressOutOfBounds o) := by
  rw [checkCell, if_neg (Nat.not_le.mpr hb), if_pos ho]

theorem exec_bankread (s : State) (t : Store) (b o : Nat) :
    exec (.bankread t b o) s = conclude s (readRef s (.banked t b o)) := rfl

/-- Settles O56. -/
theorem bankreadAnswersTheCell : Obligations.BankreadAnswersTheCell := by
  intro s t b o
  have hfail {e : Err} (h : checkCell t b o = .error e) : readWord s (.banked t b o) = .error e := by
    show (checkCell t b o >>= _) = _
    rw [h, bind_error]
  refine ⟨fun hb ho => ?_, fun hb => ?_, fun hb ho => ?_, rfl⟩
  · have hread : readWord s (.banked t b o) = .ok (cell s t b o) := readBanked_ok hb ho
    rw [exec_bankread, readRef_of_ok hread]
    rfl
  · exact conclude_bind_error ⟨_, hfail (checkCell_invalidBank o hb), rfl⟩
  · exact conclude_bind_error ⟨_, hfail (checkCell_outOfBounds hb ho), rfl⟩

/-- BANKWRITE of a 15-bit word: the checks of the cell, then the store (R126). -/
theorem exec_bankwrite {s : State} (t : Store) (b o : Nat) (h : s.port.din.toNat < 2 ^ 15) :
    exec (.bankwrite t b o) s =
      conclude s (checkCell t b o >>= fun _ => pure (completed (setCell s t b o (s.port.din.setWidth 15)))) := by
  show execBankwrite t b o s = _
  rw [execBankwrite, dataIn, asWord_of_lt h, bind_ok, BitVec.ofNat_toNat]
  rfl

/-- A store of one cell leaves every other cell of both stores as it was (R40). -/
theorem cell_setCell (s : State) {t t' : Store} {b o b' o' : Nat} (v : Word) (ho : o < bankSize t)
    (ho' : o' < bankSize t') :
    cell (setCell s t b o v) t' b' o' = if t' = t ∧ b' = b ∧ o' = o then v else cell s t' b' o' := by
  by_cases ht : t' = t
  · subst ht
    rw [cell, setCell, storeOf_withStore, readCell_writeCell]
    refine if_congr ⟨fun h => ⟨rfl, cellIndex_inj ho' ho h⟩, ?_⟩ rfl rfl
    rintro ⟨-, rfl, rfl⟩
    rfl
  · rw [if_neg fun h => ht h.1]
    cases t with
    | erasable =>
      cases t' with
      | erasable => exact absurd rfl ht
      | fixed => rfl
    | fixed =>
      cases t' with
      | erasable => rfl
      | fixed => exact absurd rfl ht

/-- Settles O57. -/
theorem bankwriteStoresTheWord : Obligations.BankwriteStoresTheWord := by
  intro s t b o hdin
  rw [exec_bankwrite t b o hdin]
  refine ⟨fun hb ho => ⟨_, ?_, fun j => readCell_writeCell _ (cellIndex t b o) j _, fun t' b' o' _ ho' =>
    cell_setCell s _ ho ho'⟩, fun hb => ?_, fun hb ho => ?_⟩
  · rw [checkCell_ok_iff.mpr ⟨hb, ho⟩]
    rfl
  · exact conclude_bind_error ⟨_, checkCell_invalidBank o hb, rfl⟩
  · exact conclude_bind_error ⟨_, checkCell_outOfBounds hb ho, rfl⟩

/-- Settles O58. -/
theorem setsbWritesTheFlag : Obligations.SetsbWritesTheFlag := fun _ _ => rfl

end Sys2Proof.Machine

namespace Sys2Proof.Machine

/-! ### The transforms of the editing cells (40_alu_primitives.md section 2) -/

/-- R103 on numbers: the bit that moves to the top and the others do not overlap. -/
theorem rotateRight_sum_eq_or {v : Nat} (h : v < 2 ^ 15) :
    v / 2 + v % 2 * 16384 = (v >>> 1) ||| ((v &&& 1) <<< 14) := by
  have hlow : v >>> 1 < 2 ^ 14 := by rw [Nat.shiftRight_eq_div_pow]; omega
  rw [Nat.or_comm, ← Nat.shiftLeft_add_eq_or_of_lt hlow, Nat.shiftLeft_eq, Nat.shiftRight_eq_div_pow,
    Nat.and_one_is_mod]
  omega

/-- R104 on numbers: the bit that moves to the bottom and the others do not overlap. -/
theorem rotateLeft_sum_eq_or {v : Nat} (h : v < 2 ^ 15) :
    v * 2 % 32768 + v / 16384 = ((v <<< 1) &&& 0o77777) ||| (v >>> 14) := by
  have hlow : v >>> 14 < 2 ^ 1 := by rw [Nat.shiftRight_eq_div_pow]; omega
  have hhigh : (v <<< 1) &&& 0o77777 = (v % 16384) <<< 1 := by
    rw [show 0o77777 = 2 ^ 15 - 1 from rfl, Nat.and_two_pow_sub_one_eq_mod, Nat.shiftLeft_eq, Nat.shiftLeft_eq]
    omega
  rw [hhigh, ← Nat.shiftLeft_add_eq_or_of_lt hlow, Nat.shiftLeft_eq, Nat.shiftRight_eq_div_pow]
  omega

/-- Settles O36: the write rules of the three cells, with the spec's formulas for what they store. -/
theorem editingCellsHoldTheTransform : Obligations.EditingCellsHoldTheTransform := by
  intro s v
  constructor
  · intro hv
    have hhalf : v >>> 1 = v / 2 := Nat.shiftRight_eq_div_pow v 1
    rw [← rotateRight_sum_eq_or hv, ← rotateLeft_sum_eq_or hv, hhalf]
    refine ⟨writeReg_of_ok (fits_of_lt _ hv), writeReg_of_ok (fits_of_lt _ hv), ?_,
      writeReg_of_ok (fits_of_lt _ hv)⟩
    rw [← shiftRight_ofNat hv]
    exact shiftRight_bit15 _
  · intro hv r hr
    simp only [List.mem_cons, List.not_mem_nil, or_false] at hr
    obtain rfl | rfl | rfl := hr <;> exact asWord_bind_of_le hv _

theorem cycleRight_cycleLeft (w : Word) : cycleRight (cycleLeft w) = w := by
  apply BitVec.eq_of_toNat_eq
  have hup : w.toNat * 2 % 32768 = w.toNat % 16384 * 2 := by omega
  rw [cycleRight_toNat, cycleLeft_toNat, hup]
  omega

theorem cycleLeft_cycleRight (w : Word) : cycleLeft (cycleRight w) = w := by
  apply BitVec.eq_of_toNat_eq
  have hdown : (w.toNat / 2 + w.toNat % 2 * 16384) * 2 % 32768 = w.toNat / 2 * 2 := by omega
  have htop : (w.toNat / 2 + w.toNat % 2 * 16384) / 16384 = w.toNat % 2 := by omega
  rw [cycleLeft_toNat, cycleRight_toNat, hdown, htop]
  omega

/-- Every bit but the lowest moves one place down. -/
theorem getLsbD_cycleRight (w : Word) {k : Nat} (h : k < 14) : (cycleRight w).getLsbD k = w.getLsbD (k + 1) := by
  simp [cycleRight, h, Nat.add_comm]

/-- Every bit but the highest moves one place up. -/
theorem getLsbD_cycleLeft (w : Word) {k : Nat} (h : k < 14) : (cycleLeft w).getLsbD (k + 1) = w.getLsbD k := by
  have hhigh : w.getLsbD (14 + (k + 1)) = false := BitVec.getLsbD_of_ge _ _ (by omega)
  simp [cycleLeft, hhigh]
  omega

/-- Settles O41. -/
theorem rotationsAreInverse : Obligations.RotationsAreInverse := by
  refine ⟨fun w => ⟨cycleRight_cycleLeft w, cycleLeft_cycleRight w, ?_, ?_, ?_, fun k => getLsbD_cycleRight w, ?_,
    fun k => getLsbD_cycleLeft w⟩, fun v => asWord_of_le⟩
  · rw [cycleRight_toNat, rotateRight_sum_eq_or w.isLt]
  · rw [cycleLeft_toNat, rotateLeft_sum_eq_or w.isLt]
  · simp [cycleRight]
  · simp [cycleLeft]

/-! ### The overflow signature (R35, R109) -/

theorem overflowBit_iff (v : Acc) : overflowBit v = true ↔ v.toNat / 2 ^ 15 % 2 = 1 := by
  rw [overflowBit, BitVec.getLsbD, Nat.testBit_eq_decide_div_mod_eq, decide_eq_true_iff]

theorem nominalSign_iff (v : Acc) : nominalSign v = true ↔ v.toNat / 2 ^ 14 % 2 = 1 := by
  rw [nominalSign, BitVec.getLsbD, Nat.testBit_eq_decide_div_mod_eq, decide_eq_true_iff]

/-- Settles O42: each part is a statement about bits 16 and 15 of the number. -/
theorem overflowSignatureMarksTheTwoRanges : Obligations.OverflowSignatureMarksTheTwoRanges := by
  intro v
  have hv := v.isLt
  have hover := overflowBit_iff v
  have hsign := nominalSign_iff v
  have hovf : ovf v = true ↔ ¬(overflowBit v = true ↔ nominalSign v = true) := by
    rw [ovf, bne_iff_ne, ne_eq, Bool.eq_iff_iff]
  have hpos : positiveOverflow v = true ↔ ¬overflowBit v = true ∧ nominalSign v = true := by
    rw [positiveOverflow, Bool.and_eq_true, Bool.not_eq_true', Bool.not_eq_true]
  have hneg : negativeOverflow v = true ↔ overflowBit v = true ∧ ¬nominalSign v = true := by
    rw [negativeOverflow, Bool.and_eq_true, Bool.not_eq_true', Bool.not_eq_true]
  rw [hover, hsign] at hovf hpos hneg
  refine ⟨?_, ?_, ?_, ?_⟩
  · rw [hovf, Nat.and_one_is_mod, Nat.xor_mod_two_eq_one, Nat.shiftRight_eq_div_pow, Nat.shiftRight_eq_div_pow]
  · rw [hpos]
    omega
  · rw [hneg]
    omega
  · rw [hovf, hpos, hneg]
    omega

/-! ### What INCR, AUG and DIM make of a word (42_arithmetic_ops.md section 2) -/

theorem isZero_iff {n : Nat} (v : BitVec n) : isZero v = true ↔ v = 0#n ∨ v = BitVec.allOnes n := by
  rw [isZero, Bool.or_eq_true, beq_iff_eq, beq_iff_eq]

/-- A word that is not a zero, as a number: neither end of the range. -/
theorem toNat_of_isZero_eq_false {n : Nat} {v : BitVec n} (h : isZero v = false) :
    v.toNat ≠ 0 ∧ v.toNat ≠ 2 ^ n - 1 := by
  rw [Ne, Ne, toNat_eq_zero_iff, toNat_eq_max_iff, ← not_or, ← isZero_iff, h]
  exact Bool.false_ne_true

section
variable {n : Nat} (hn : 1 < n) (v : BitVec n)
include hn

/-- Half the range, and that it holds more than one word. -/
theorem two_pow_eq_half_add_half : 2 ^ n = 2 * 2 ^ (n - 1) ∧ 2 ≤ 2 ^ (n - 1) :=
  ⟨(mul_pow_sub_one (by omega) 2).symm, Nat.le_self_pow (by omega) 2⟩

theorem incrWord_toNat : (incrWord n v).toNat = if v.toNat = 2 ^ n - 1 then 1 else v.toNat + 1 := by
  have hv := v.isLt
  rw [incrWord, eacAdd_toNat, plusOne_toNat (by omega)]
  split_ifs <;> omega

theorem augWord_toNat : (augWord n v).toNat = if 2 ^ (n - 1) ≤ v.toNat then v.toNat - 1 else v.toNat + 1 := by
  have hv := v.isLt
  obtain ⟨hhalf, hle⟩ := two_pow_eq_half_add_half hn
  simp only [augWord, authoritativeSign_iff]
  by_cases hs : 2 ^ (n - 1) ≤ v.toNat
  · rw [if_pos hs, if_pos (by omega), eacAdd_toNat, minusOne_toNat (by omega)]
    split_ifs <;> omega
  · rw [if_neg hs, if_neg (by omega), eacAdd_toNat, plusOne_toNat (by omega)]
    split_ifs <;> omega

theorem dimWord_toNat (hz : isZero v = false) :
    (dimWord n v).toNat =
      if 2 ^ (n - 1) ≤ v.toNat then v.toNat + 1 else if v.toNat = 1 then 2 ^ n - 1 else v.toNat - 1 := by
  have hv := v.isLt
  obtain ⟨hzero, hmax⟩ := toNat_of_isZero_eq_false hz
  obtain ⟨hhalf, hle⟩ := two_pow_eq_half_add_half hn
  simp only [dimWord, authoritativeSign_iff]
  by_cases hs : 2 ^ (n - 1) ≤ v.toNat
  · rw [if_pos hs, if_pos (by omega), eacAdd_toNat, plusOne_toNat (by omega)]
    split_ifs <;> omega
  · rw [if_neg hs, if_neg (by omega), eacAdd_toNat, minusOne_toNat (by omega)]
    split_ifs <;> omega

theorem value_incrWord (h : value v < 2 ^ (n - 1) - 1) : value (incrWord n v) = value v + 1 := by
  have hv := v.isLt
  obtain ⟨hhalf, hle⟩ := two_pow_eq_half_add_half hn
  have hcast : ((2 ^ (n - 1) : Nat) : Int) = 2 ^ (n - 1) := by norm_cast
  rw [← hcast] at h
  rw [value_eq] at h ⊢
  rw [value_eq, incrWord_toNat hn]
  split_ifs at h ⊢ <;> omega

theorem natAbs_value_augWord (h : (value v).natAbs < 2 ^ (n - 1) - 1) :
    (value (augWord n v)).natAbs = (value v).natAbs + 1 := by
  have hv := v.isLt
  obtain ⟨hhalf, hle⟩ := two_pow_eq_half_add_half hn
  rw [value_eq] at h ⊢
  rw [value_eq, augWord_toNat hn]
  split_ifs at h ⊢ <;> omega

theorem natAbs_value_dimWord (hz : isZero v = false) :
    (value (dimWord n v)).natAbs + 1 = (value v).natAbs := by
  have hv := v.isLt
  obtain ⟨hzero, hmax⟩ := toNat_of_isZero_eq_false hz
  obtain ⟨hhalf, hle⟩ := two_pow_eq_half_add_half hn
  rw [value_eq, value_eq, dimWord_toNat hn v hz]
  split_ifs <;> omega

end

/-- Settles O44: what each makes of the number, from which what it makes of the value. -/
theorem incrAugDimByValue : Obligations.IncrAugDimByValue := by
  intro n hn v
  have hn' : 1 < n := by omega
  refine ⟨?_, augWord_toNat hn' v, dimWord_toNat hn' v, value_incrWord hn' v, natAbs_value_augWord hn' v,
    natAbs_value_dimWord hn' v, (isZero_iff v).trans (value_eq_zero_iff v).symm⟩
  simp only [incrWord_toNat hn', toNat_eq_max_iff]

/-! ### The addition path: AD, SU, COM and DOUBLE -/

theorem ofNat_max_sub_toNat (v : Acc) : BitVec.ofNat 16 (0o177777 - v.toNat) = notWord v := by
  apply BitVec.eq_of_toNat_eq
  rw [toNat_ofNat_of_lt (by omega), notWord_toNat]
  rfl

/-- Inverting and extending come to the same in either order (R147). -/
theorem signExtend_notWord (w : Word) : signExtend (notWord w) = notWord (signExtend w) := by
  have hw := w.isLt
  apply BitVec.eq_of_toNat_eq
  rw [signExtend_toNat, notWord_toNat, notWord_toNat, signExtend_toNat]
  split_ifs <;> omega

/-- Inversion is negation (R6, R108). -/
theorem value_notWord {n : Nat} (hn : 0 < n) (v : BitVec n) : value (notWord v) = -value v := by
  have hv := v.isLt
  have hhalf : 2 ^ n = 2 * 2 ^ (n - 1) := (mul_pow_sub_one hn.ne' 2).symm
  rw [value_eq, value_eq, notWord_toNat]
  split_ifs <;> omega

/-- AD on a readable reference, in either format (R141, R142). -/
theorem exec_ad_of_operand {s : State} {ref : Ref} {i : Instr} {op : Operand} (hi : ActsOn s ref .adF .adR i)
    (h : operandOf s ref = some op) : exec i s = .next { completed s with a := eacAdd s.a op.addend } := by
  have hexec : exec i s = conclude s (adRef s ref) := exec_of_actsOn ad_mem hi
  rw [hexec, adRef, loadOperand_of_some h, bind_ok, addToA_eq]
  rfl

/-- SU on a readable reference, in either format (R141, R147). -/
theorem exec_su_of_operand {s : State} {ref : Ref} {i : Instr} {op : Operand} (hi : ActsOn s ref .suF .suR i)
    (h : operandOf s ref = some op) : exec i s = .next { completed s with a := eacAdd s.a op.negated } := by
  have hexec : exec i s = conclude s (suRef s ref) := exec_of_actsOn su_mem hi
  rw [hexec, suRef, loadOperand_of_some h, bind_ok, addToA_eq]
  rfl

/-- Settles O45. -/
theorem adAddsTheOperandIntoA : Obligations.AdAddsTheOperandIntoA := fun _ _ _ hi =>
  ⟨fun _ => exec_ad_of_operand hi, fun _ => exec_ad_of_operand hi⟩

/-- Settles O46. -/
theorem suAddsTheInverseIntoA : Obligations.SuAddsTheInverseIntoA := by
  intro s ref i hi
  refine ⟨fun v h => ?_, fun w h => ?_⟩
  · rw [ofNat_max_sub_toNat]
    exact exec_su_of_operand hi h
  · rw [ofNat_max_sub_toNat, ← signExtend_notWord]
    exact exec_su_of_operand hi h

/-- Settles O47: the sum of two sign-extended words is exact, and SU adds the word of the negated number. -/
theorem adAndSuComputeTheTrueResult : Obligations.AdAndSuComputeTheTrueResult := by
  intro s ref i u w hop ha
  refine ⟨fun hi => ⟨_, exec_ad_of_operand hi hop, ?_⟩, fun hi => ⟨_, exec_su_of_operand hi hop, ?_⟩⟩
  · have hvalue : value (eacAdd s.a (signExtend w)) = value u + value w := by
      rw [ha, value_eacAdd_signExtend]
    exact ⟨hvalue, hvalue ▸ ovf_iff_value _⟩
  · have hvalue : value (eacAdd s.a (signExtend (notWord w))) = value u - value w := by
      rw [ha, value_eacAdd_signExtend, value_notWord (by decide), sub_eq_add_neg]
    exact ⟨hvalue, hvalue ▸ ovf_iff_value _⟩

/-- Settles O48: COM negates the number in A, and the signature depends on its size alone. -/
theorem comInvertsA : Obligations.ComInvertsA := by
  intro s
  have hvalue : value (notWord s.a) = -value s.a := value_notWord (by decide) s.a
  rw [ofNat_max_sub_toNat]
  refine ⟨?_, hvalue, ?_⟩
  · show execCom s = _
    rw [execCom, writeReg_a_word]
    rfl
  · rw [Bool.eq_iff_iff, ovf_iff_value, ovf_iff_value, hvalue, Int.natAbs_neg]

/-- Settles O49. -/
theorem doubleAddsAToItself : Obligations.DoubleAddsAToItself := by
  intro s
  show execDouble s = _
  rw [execDouble, addToA_eq]
  rfl

/-! ### INCR, AUG and DIM by target -/

section
variable {s : State} {ref : Ref}

theorem operandOf_a (h : refReg s.cfg ref = some .a) : operandOf s ref = some (.wide s.a) := by
  rw [operandOf, h]

theorem operandOf_q (h : refReg s.cfg ref = some .q) : operandOf s ref = some (.wide s.q) := by
  rw [operandOf, h]

theorem operandOf_narrowReg {r : Reg} (h : refReg s.cfg ref = some r) (ha : r ≠ .a) (hq : r ≠ .q) :
    operandOf s ref = some (.narrow (BitVec.ofNat 15 (cellValue s r))) := by
  rw [operandOf, h]
  cases r with
  | a => exact absurd rfl ha
  | q => exact absurd rfl hq
  | _ => rfl

theorem operandOf_cell {t : Store} {b o : Nat} (h : refCell s.cfg ref = some (t, b, o)) :
    operandOf s ref = some (.narrow (cell s t b o)) := by
  rw [operandOf, (refCell_some h).1, h]

theorem operandOf_deadBank : operandOf s .deadBank = some (.narrow 0#15) := rfl

/-- INCR, AUG and DIM of an operand that is not a zero: what they make of it is stored (R144 to R146). -/
theorem exec_of_modifies {i : Instr} {f : (n : Nat) → BitVec n → BitVec n} {op : Operand}
    (h : Modifies s ref i f) (hop : operandOf s ref = some op) :
    exec i s = conclude s (storeOperand s ref (op.map f) >>= fun u => pure (completed u)) := by
  obtain ⟨hi, rfl⟩ | ⟨hi, rfl⟩ | ⟨hi, rfl, op', hop', hz⟩ := h
  · have hexec : exec i s = conclude s (incrRef s ref) := exec_of_actsOn incr_mem hi
    rw [hexec, incrRef, loadOperand_of_some hop]
    rfl
  · have hexec : exec i s = conclude s (augRef s ref) := exec_of_actsOn aug_mem hi
    rw [hexec, augRef, loadOperand_of_some hop]
    rfl
  · have hexec : exec i s = conclude s (dimRef s ref) := exec_of_actsOn dim_mem hi
    cases hop.symm.trans hop'
    rw [hexec, dimRef, loadOperand_of_some hop, bind_ok, if_neg (hz ▸ Bool.false_ne_true)]
    rfl

end

/-- Settles O50: AD of `Direct(0)` reads the raw A. -/
theorem doubleIsAdOfA : Obligations.DoubleIsAdOfA := by
  intro s h
  have hop : operandOf s (.direct 0) = some (.wide s.a) := operandOf_a h
  exact (doubleAddsAToItself s).trans (exec_ad_of_operand (.inl rfl) hop).symm

/-- Settles O51: the raw write of A and Q takes all 16 bits. -/
theorem incrAugDimOfWideRegisters : Obligations.IncrAugDimOfWideRegisters := by
  intro s ref i f h
  refine ⟨fun hr => ?_, fun hr => ?_⟩
  · rw [exec_of_modifies h (operandOf_a hr), storeOperand_of_wide _ hr (.inl rfl), Operand.map, Operand.toNat,
      writeReg_a_word]
    rfl
  · rw [exec_of_modifies h (operandOf_q hr), storeOperand_of_wide _ hr (.inr rfl), Operand.map, Operand.toNat,
      writeReg_q_word]
    rfl

/-- Settles O52. -/
theorem incrAugDimOfErasableCells : Obligations.IncrAugDimOfErasableCells := by
  intro s ref i f b o h hc
  rw [exec_of_modifies h (operandOf_cell hc), storeOperand_of_cell _ hc, Operand.map, Operand.toNat,
    writeWord_of_erasable (BitVec.isLt _) hc, ofNat_toNat_self]
  exact ⟨_, rfl, fun j => readCell_writeCell _ _ j _⟩

/-- Settles O53. -/
theorem incrAugDimOfReadOnlyTargets : Obligations.IncrAugDimOfReadOnlyTargets := by
  intro s ref i f h
  refine ⟨fun b o hc => ?_, fun hd => ?_⟩
  · rw [exec_of_modifies h (operandOf_cell hc), storeOperand_of_cell _ hc, Operand.map, Operand.toNat,
      writeWord_of_fixed (BitVec.isLt _) hc]
    rfl
  · subst hd
    have hstore (w : Word) : storeOperand s .deadBank (.narrow w) = .ok s := writeWord_deadBank w.isLt
    rw [exec_of_modifies h operandOf_deadBank, Operand.map, hstore]
    rfl

/-- Settles O54: the generic write of a register cell is the raw write of its cell. -/
theorem incrAugDimOfNarrowRegisters : Obligations.IncrAugDimOfNarrowRegisters := by
  intro s ref i f r h hr ha hq
  rw [exec_of_modifies h (operandOf_narrowReg hr ha hq), storeOperand_of_narrow _ hr (not_or.mpr ⟨ha, hq⟩),
    Operand.map, Operand.toNat, writeWord_of_reg (BitVec.isLt _) hr]
  exact ⟨fun t => conclude_writeReg_ok, fun e => conclude_writeReg_error⟩

/-- Settles O55: the zero test comes before the store. -/
theorem dimOfZeroWritesNothing : Obligations.DimOfZeroWritesNothing := by
  intro s ref i op hi hop hz
  have hexec : exec i s = conclude s (dimRef s ref) := exec_of_actsOn dim_mem hi
  rw [hexec, dimRef, loadOperand_of_some hop, bind_ok, if_pos hz]
  rfl

end Sys2Proof.Machine
